-- ==== Sys2Proof/Word.lean ====
section
/-! DEFINITION. The value types of the hardware (00_scope.md R5, R9) and zero extension (R7). -/

namespace Sys2Proof

/-- A register value, a memory byte, an immediate `NN`, a timer (R9). -/
abbrev Byte := BitVec 8

/-- `I`, `pc`, a stack slot, an instruction word (R9). -/
abbrev Word := BitVec 16

/-- The 12-bit address operand `NNN` (R9, R71). -/
abbrev Addr12 := BitVec 12

/-- A register or key number, 0 to 15, selected by a 4-bit field (R21, R33, R71). -/
abbrev Reg := Fin 16

/-- A display pixel: column 0 to 63, row 0 to 31 (R29). -/
abbrev Pixel := Fin 64 × Fin 32

/-- `zext_16(v)` of R7: `v` widened to 16 bits with zeros. -/
abbrev zext16 {n : Nat} (b : BitVec n) : Word := b.setWidth 16

end Sys2Proof
end

