-- ==== Sys2Proof/Syntax.lean ====
section
/-! DEFINITION. The 34 instructions, one constructor per row of spec/opcode_table.json
(30_encoding.md R74, R78, R79). Operands are the fields `X`, `Y`, `NN`, `NNN` at their widths (R71);
`N` of `DXYN` is a count of rows, a number whose bound WellFormed.lean checks. -/

namespace Sys2Proof

inductive Instr where
  | cls                              -- 00E0 clear screen
  | ret                              -- 00EE return
  | jp (nnn : Addr12)                -- 1NNN jump
  | call (nnn : Addr12)              -- 2NNN call
  | seImm (x : Reg) (nn : Byte)      -- 3XNN skip-eq-imm
  | sneImm (x : Reg) (nn : Byte)     -- 4XNN skip-ne-imm
  | seReg (x y : Reg)                -- 5XY0 skip-eq-reg
  | ldImm (x : Reg) (nn : Byte)      -- 6XNN load imm
  | addImm (x : Reg) (nn : Byte)     -- 7XNN add imm
  | ldReg (x y : Reg)                -- 8XY0 copy
  | or (x y : Reg)                   -- 8XY1 or
  | and (x y : Reg)                  -- 8XY2 and
  | xor (x y : Reg)                  -- 8XY3 xor
  | addReg (x y : Reg)               -- 8XY4 add regs
  | sub (x y : Reg)                  -- 8XY5 sub regs
  | shr (x y : Reg)                  -- 8XY6 shift right
  | subn (x y : Reg)                 -- 8XY7 sub reversed
  | shl (x y : Reg)                  -- 8XYE shift left
  | sneReg (x y : Reg)               -- 9XY0 skip-ne-reg
  | ldI (nnn : Addr12)               -- ANNN load index
  | jpV0 (nnn : Addr12)              -- BNNN jump+offset
  | rnd (x : Reg) (nn : Byte)        -- CXNN random-and
  | drw (x y : Reg) (n : Nat)        -- DXYN draw sprite
  | skp (x : Reg)                    -- EX9E skip-if-key
  | sknp (x : Reg)                   -- EXA1 skip-if-not-key
  | ldVxDt (x : Reg)                 -- FX07 load delay
  | ldVxK (x : Reg)                  -- FX0A wait-for-key
  | ldDtVx (x : Reg)                 -- FX15 set delay
  | ldStVx (x : Reg)                 -- FX18 set sound
  | addI (x : Reg)                   -- FX1E add to index
  | ldF (x : Reg)                    -- FX29 font address
  | ldB (x : Reg)                    -- FX33 store BCD
  | stRegs (x : Reg)                 -- FX55 store regs
  | ldRegs (x : Reg)                 -- FX65 load regs
deriving DecidableEq, Repr

end Sys2Proof
end

