-- ==== Sys2Proof/WellFormed.lean ====
section
/-! DEFINITION. Which instruction terms the encoding can spell. Register numbers, immediates and
addresses have their field's width in their types; the row count `N` of `DXYN` is the one operand
that a term could state out of range (30_encoding.md R71, R73). -/

namespace Sys2Proof

/-- The row count `N` fits its 4-bit field (R71). -/
abbrev RowCountFits (n : Nat) : Prop := n < 16

/-- An instruction term whose every operand the encoding admits. -/
def Instr.WellFormed : Instr → Bool
  | .drw _ _ n => decide (RowCountFits n)
  | .cls | .ret | .jp _ | .call _ | .seImm _ _ | .sneImm _ _ | .seReg _ _ | .ldImm _ _
  | .addImm _ _ | .ldReg _ _ | .or _ _ | .and _ _ | .xor _ _ | .addReg _ _ | .sub _ _ | .shr _ _
  | .subn _ _ | .shl _ _ | .sneReg _ _ | .ldI _ | .jpV0 _ | .rnd _ _ | .skp _ | .sknp _
  | .ldVxDt _ | .ldVxK _ | .ldDtVx _ | .ldStVx _ | .addI _ | .ldF _ | .ldB _ | .stRegs _
  | .ldRegs _ => true

end Sys2Proof
end

