-- ==== Sys2Proof/Decode.lean ====
section
/-! DEFINITION. From instruction words to instructions and back (30_encoding.md R70 to R78). Decoding
is a total function of the word alone (R77) and rejects by name; the encoder is written from the
patterns of R74. -/

namespace Sys2Proof

/-- Why bytes spell no instruction: the word matches no row of R74 (R75), or there are not two bytes. -/
inductive DecodeReject where
  | illegalOpcode (w : Word)
  | truncated
deriving DecidableEq, Repr

/-! ### The fields of a word (R71) -/

/-- `C = w[15:12]`, the category. -/
def fieldC (w : Word) : Nat := (w.extractLsb' 12 4).toNat
/-- `X = w[11:8]`. -/
def fieldX (w : Word) : Reg := ⟨(w.extractLsb' 8 4).toNat, (w.extractLsb' 8 4).isLt⟩
/-- `Y = w[7:4]`. -/
def fieldY (w : Word) : Reg := ⟨(w.extractLsb' 4 4).toNat, (w.extractLsb' 4 4).isLt⟩
/-- `N = w[3:0]`, a sub-opcode or the row count of `DXYN`. -/
def fieldN (w : Word) : Nat := (w.extractLsb' 0 4).toNat
/-- `NN = w[7:0]`. -/
def fieldNN (w : Word) : Byte := w.extractLsb' 0 8
/-- `NNN = w[11:0]`. -/
def fieldNNN (w : Word) : Addr12 := w.extractLsb' 0 12

/-! ### Decoding: the two levels of R78 -/

/-- Category 0: the whole word is compared (R78). -/
def decodeCat0 (w : Word) : Except DecodeReject Instr :=
  if w = 0x00E0#16 then .ok .cls
  else if w = 0x00EE#16 then .ok .ret
  else .error (.illegalOpcode w)

/-- Category 8: the sub-opcode is the low nibble (R78). -/
def decodeCat8 (w : Word) : Except DecodeReject Instr :=
  match fieldN w with
  | 0x0 => .ok (.ldReg (fieldX w) (fieldY w))
  | 0x1 => .ok (.or (fieldX w) (fieldY w))
  | 0x2 => .ok (.and (fieldX w) (fieldY w))
  | 0x3 => .ok (.xor (fieldX w) (fieldY w))
  | 0x4 => .ok (.addReg (fieldX w) (fieldY w))
  | 0x5 => .ok (.sub (fieldX w) (fieldY w))
  | 0x6 => .ok (.shr (fieldX w) (fieldY w))
  | 0x7 => .ok (.subn (fieldX w) (fieldY w))
  | 0xE => .ok (.shl (fieldX w) (fieldY w))
  | _ => .error (.illegalOpcode w)

/-- Category E: the sub-opcode is the low byte (R78). -/
def decodeCatE (w : Word) : Except DecodeReject Instr :=
  if fieldNN w = 0x9E#8 then .ok (.skp (fieldX w))
  else if fieldNN w = 0xA1#8 then .ok (.sknp (fieldX w))
  else .error (.illegalOpcode w)

/-- Category F: the sub-opcode is the low byte (R78). -/
def decodeCatF (w : Word) : Except DecodeReject Instr :=
  if fieldNN w = 0x07#8 then .ok (.ldVxDt (fieldX w))
  else if fieldNN w = 0x0A#8 then .ok (.ldVxK (fieldX w))
  else if fieldNN w = 0x15#8 then .ok (.ldDtVx (fieldX w))
  else if fieldNN w = 0x18#8 then .ok (.ldStVx (fieldX w))
  else if fieldNN w = 0x1E#8 then .ok (.addI (fieldX w))
  else if fieldNN w = 0x29#8 then .ok (.ldF (fieldX w))
  else if fieldNN w = 0x33#8 then .ok (.ldB (fieldX w))
  else if fieldNN w = 0x55#8 then .ok (.stRegs (fieldX w))
  else if fieldNN w = 0x65#8 then .ok (.ldRegs (fieldX w))
  else .error (.illegalOpcode w)

/-- `decode(w)` of R78. -/
def decode (w : Word) : Except DecodeReject Instr :=
  match fieldC w with
  | 0x0 => decodeCat0 w
  | 0x1 => .ok (.jp (fieldNNN w))
  | 0x2 => .ok (.call (fieldNNN w))
  | 0x3 => .ok (.seImm (fieldX w) (fieldNN w))
  | 0x4 => .ok (.sneImm (fieldX w) (fieldNN w))
  | 0x5 => if fieldN w = 0 then .ok (.seReg (fieldX w) (fieldY w)) else .error (.illegalOpcode w)
  | 0x6 => .ok (.ldImm (fieldX w) (fieldNN w))
  | 0x7 => .ok (.addImm (fieldX w) (fieldNN w))
  | 0x8 => decodeCat8 w
  | 0x9 => if fieldN w = 0 then .ok (.sneReg (fieldX w) (fieldY w)) else .error (.illegalOpcode w)
  | 0xA => .ok (.ldI (fieldNNN w))
  | 0xB => .ok (.jpV0 (fieldNNN w))
  | 0xC => .ok (.rnd (fieldX w) (fieldNN w))
  | 0xD => .ok (.drw (fieldX w) (fieldY w) (fieldN w))
  | 0xE => decodeCatE w
  | 0xF => decodeCatF w
  | _ => .error (.illegalOpcode w)

/-- Two bytes joined high byte first (20_memory.md R52). -/
def joinBytes (hi lo : Byte) : Word := BitVec.ofNat 16 (hi.toNat * 256 + lo.toNat)

/-- A word as its two bytes in ascending address order, high byte first (R52). -/
def splitWord (w : Word) : List Byte := [w.extractLsb' 8 8, w.extractLsb' 0 8]

/-- Decode the instruction at the head of any byte string, with the bytes after it (R70: every
instruction is exactly two bytes). -/
def decodeBytes : List Byte → Except DecodeReject (Instr × List Byte)
  | hi :: lo :: rest =>
    match decode (joinBytes hi lo) with
    | .ok i => .ok (i, rest)
    | .error e => .error e
  | _ => .error .truncated

/-! ### Encoding: the patterns of R74 -/

/-- The word of four hexadecimal nibbles, most significant first (R6). -/
def nibbles (c x y n : Nat) : Word := BitVec.ofNat 16 (c * 0x1000 + x * 0x100 + y * 0x10 + n)

/-- The word `CXNN`: category, register, byte (formats REG_IMM and REG_SUB of R72). -/
def nibbleByte (c x : Nat) (nn : Byte) : Word := BitVec.ofNat 16 (c * 0x1000 + x * 0x100 + nn.toNat)

/-- The word `CNNN`: category, address (format ADDR of R72). -/
def nibbleAddr (c : Nat) (nnn : Addr12) : Word := BitVec.ofNat 16 (c * 0x1000 + nnn.toNat)

/-- The word of a well-formed instruction, from the patterns of R74. -/
def encode : Instr → Word
  | .cls => 0x00E0#16
  | .ret => 0x00EE#16
  | .jp nnn => nibbleAddr 0x1 nnn
  | .call nnn => nibbleAddr 0x2 nnn
  | .seImm x nn => nibbleByte 0x3 x nn
  | .sneImm x nn => nibbleByte 0x4 x nn
  | .seReg x y => nibbles 0x5 x y 0x0
  | .ldImm x nn => nibbleByte 0x6 x nn
  | .addImm x nn => nibbleByte 0x7 x nn
  | .ldReg x y => nibbles 0x8 x y 0x0
  | .or x y => nibbles 0x8 x y 0x1
  | .and x y => nibbles 0x8 x y 0x2
  | .xor x y => nibbles 0x8 x y 0x3
  | .addReg x y => nibbles 0x8 x y 0x4
  | .sub x y => nibbles 0x8 x y 0x5
  | .shr x y => nibbles 0x8 x y 0x6
  | .subn x y => nibbles 0x8 x y 0x7
  | .shl x y => nibbles 0x8 x y 0xE
  | .sneReg x y => nibbles 0x9 x y 0x0
  | .ldI nnn => nibbleAddr 0xA nnn
  | .jpV0 nnn => nibbleAddr 0xB nnn
  | .rnd x nn => nibbleByte 0xC x nn
  | .drw x y n => nibbles 0xD x y n
  | .skp x => nibbleByte 0xE x 0x9E#8
  | .sknp x => nibbleByte 0xE x 0xA1#8
  | .ldVxDt x => nibbleByte 0xF x 0x07#8
  | .ldVxK x => nibbleByte 0xF x 0x0A#8
  | .ldDtVx x => nibbleByte 0xF x 0x15#8
  | .ldStVx x => nibbleByte 0xF x 0x18#8
  | .addI x => nibbleByte 0xF x 0x1E#8
  | .ldF x => nibbleByte 0xF x 0x29#8
  | .ldB x => nibbleByte 0xF x 0x33#8
  | .stRegs x => nibbleByte 0xF x 0x55#8
  | .ldRegs x => nibbleByte 0xF x 0x65#8

/-- The bytes of an instruction as memory holds them (R52). -/
def encodeBytes (i : Instr) : List Byte := splitWord (encode i)

/-! ### The opcode map as data (R74) -/

/-- The mask and match of an instruction's row in R74: `w & mask = match`. -/
def opcodeRow : Instr → Word × Word
  | .cls => (0xFFFF#16, 0x00E0#16)
  | .ret => (0xFFFF#16, 0x00EE#16)
  | .jp _ => (0xF000#16, 0x1000#16)
  | .call _ => (0xF000#16, 0x2000#16)
  | .seImm _ _ => (0xF000#16, 0x3000#16)
  | .sneImm _ _ => (0xF000#16, 0x4000#16)
  | .seReg _ _ => (0xF00F#16, 0x5000#16)
  | .ldImm _ _ => (0xF000#16, 0x6000#16)
  | .addImm _ _ => (0xF000#16, 0x7000#16)
  | .ldReg _ _ => (0xF00F#16, 0x8000#16)
  | .or _ _ => (0xF00F#16, 0x8001#16)
  | .and _ _ => (0xF00F#16, 0x8002#16)
  | .xor _ _ => (0xF00F#16, 0x8003#16)
  | .addReg _ _ => (0xF00F#16, 0x8004#16)
  | .sub _ _ => (0xF00F#16, 0x8005#16)
  | .shr _ _ => (0xF00F#16, 0x8006#16)
  | .subn _ _ => (0xF00F#16, 0x8007#16)
  | .shl _ _ => (0xF00F#16, 0x800E#16)
  | .sneReg _ _ => (0xF00F#16, 0x9000#16)
  | .ldI _ => (0xF000#16, 0xA000#16)
  | .jpV0 _ => (0xF000#16, 0xB000#16)
  | .rnd _ _ => (0xF000#16, 0xC000#16)
  | .drw _ _ _ => (0xF000#16, 0xD000#16)
  | .skp _ => (0xF0FF#16, 0xE09E#16)
  | .sknp _ => (0xF0FF#16, 0xE0A1#16)
  | .ldVxDt _ => (0xF0FF#16, 0xF007#16)
  | .ldVxK _ => (0xF0FF#16, 0xF00A#16)
  | .ldDtVx _ => (0xF0FF#16, 0xF015#16)
  | .ldStVx _ => (0xF0FF#16, 0xF018#16)
  | .addI _ => (0xF0FF#16, 0xF01E#16)
  | .ldF _ => (0xF0FF#16, 0xF029#16)
  | .ldB _ => (0xF0FF#16, 0xF033#16)
  | .stRegs _ => (0xF0FF#16, 0xF055#16)
  | .ldRegs _ => (0xF0FF#16, 0xF065#16)

/-- The 34 rows of R74, in the table's order, as (mask, match). -/
def opcodeRows : List (Word × Word) :=
  [(0xFFFF#16, 0x00E0#16), (0xFFFF#16, 0x00EE#16), (0xF000#16, 0x1000#16), (0xF000#16, 0x2000#16)]
  ++ [(0xF000#16, 0x3000#16), (0xF000#16, 0x4000#16), (0xF00F#16, 0x5000#16), (0xF000#16, 0x6000#16)]
  ++ [(0xF000#16, 0x7000#16), (0xF00F#16, 0x8000#16), (0xF00F#16, 0x8001#16), (0xF00F#16, 0x8002#16)]
  ++ [(0xF00F#16, 0x8003#16), (0xF00F#16, 0x8004#16), (0xF00F#16, 0x8005#16), (0xF00F#16, 0x8006#16)]
  ++ [(0xF00F#16, 0x8007#16), (0xF00F#16, 0x800E#16), (0xF00F#16, 0x9000#16), (0xF000#16, 0xA000#16)]
  ++ [(0xF000#16, 0xB000#16), (0xF000#16, 0xC000#16), (0xF000#16, 0xD000#16), (0xF0FF#16, 0xE09E#16)]
  ++ [(0xF0FF#16, 0xE0A1#16), (0xF0FF#16, 0xF007#16), (0xF0FF#16, 0xF00A#16), (0xF0FF#16, 0xF015#16)]
  ++ [(0xF0FF#16, 0xF018#16), (0xF0FF#16, 0xF01E#16), (0xF0FF#16, 0xF029#16), (0xF0FF#16, 0xF033#16)]
  ++ [(0xF0FF#16, 0xF055#16), (0xF0FF#16, 0xF065#16)]

/-- The word the numbering of spec/opcode_table.json gives: its low `nbits` bits, as one 16-bit word. -/
def tableWord (nbits w : Nat) : Word := BitVec.ofNat 16 (w % 2 ^ nbits)

/-- The instruction this decoder reads from the bytes of a table word laid out as memory holds them. -/
def decodeTableWord (nbits w : Nat) : Option Instr :=
  match decodeBytes (splitWord (tableWord nbits w)) with
  | .ok (i, _) => some i
  | .error _ => none

end Sys2Proof
end

