-- ==== Sys2Proof/Config.lean ====
section
/-! DEFINITION. What is fixed for a machine but not by the spec: the two settings (10_state.md R31)
and the free values behind the draws (R36). The opaque constants have no body, so nothing can be
proved of their values: a claim about them holds whatever they are. -/

namespace Sys2Proof

/-- `WRAP_MODE` (R31): wrap around the screen edges, or suppress off-screen pixels. -/
inductive WrapMode where
  | wrap
  | clip
deriving DecidableEq, Repr, Inhabited

/-- `DIALECT` (R31): original COSMAC semantics, or later SCHIP semantics. -/
inductive Dialect where
  | cosmac
  | schip
deriving DecidableEq, Repr, Inhabited

/-- The `WRAP_MODE` the host constructs the machine of `State.reset` with: the spec states no
default (R31, 92_eei_decisions.md D16). DESIGN CHOICE, safe: log 1. -/
opaque Config.wrapMode : WrapMode

/-- The `DIALECT` the host constructs the machine of `State.reset` with: the spec states no default
(R31, 92_eei_decisions.md D16). DESIGN CHOICE, safe: log 1. -/
opaque Config.dialect : Dialect

/-- The random byte of the `k`-th draw (R36 (a), R132): any byte, under no law. Log 3. -/
opaque Config.randomByte : Nat → Byte

/-- The choice `FX0A` makes at the `k`-th draw when the given keys are down (R36 (b), R162): any
number; the meaning reduces it to a key that is down. Log 3. -/
opaque Config.keyChoice : Nat → Vector Bool 16 → Nat

end Sys2Proof
end

