-- ==== Sys2Proof/Machine/Display.lean ====
section
/-! DEFINITION. The display buffer (10_state.md R29) and the sprite draw on it (44_display.md R151). -/

namespace Sys2Proof.Machine

/-- 32 rows of 64 one-bit pixels, row 0 the top row (R29, log 23). -/
abbrev Display := Vector (Vector Bool 64) 32

/-- The blank display: what Reset and `00E0` leave (R37, R150). -/
def Display.blank : Display := Vector.replicate 32 (Vector.replicate 64 false)

/-- `PIX(x, y)`. -/
def Display.get (d : Display) (p : Pixel) : Bool := (d[p.2.val])[p.1.val]

/-- `PIX(x, y) <- b`. -/
def Display.set (d : Display) (p : Pixel) (b : Bool) : Display :=
  Vector.set d p.2.val ((d[p.2.val]).set p.1.val b)

/-- Where the pixel at natural coordinates lands: wrapped round the screen in `wrap`, nowhere when it
is off the screen in `clip` (R151). -/
def placePixel : WrapMode → Nat → Nat → Option Pixel
  | .wrap, cx, cy => some (Fin.ofNat 64 cx, Fin.ofNat 32 cy)
  | .clip, cx, cy => if h : cx < 64 ∧ cy < 32 then some (⟨cx, h.1⟩, ⟨cy, h.2⟩) else none

/-- The pixels one row byte of a sprite draws at row `cy`, its bit 7 at column `x0` (R151). -/
def rowPixels (mode : WrapMode) (x0 cy : Nat) (row : Byte) : List Pixel :=
  (List.range 8).filterMap fun b =>
    if row.getLsbD (7 - b) then placePixel mode (x0 + b) cy else none

/-- The pixels a sprite draws, in the order of R151's two loops: `rows` are the row bytes from row
`cy` down. -/
def spritePixels (mode : WrapMode) (x0 : Nat) : Nat → List Byte → List Pixel
  | _, [] => []
  | cy, row :: rows => rowPixels mode x0 cy row ++ spritePixels mode x0 (cy + 1) rows

/-- Drawing one pixel: the collision flag is promoted if the pixel was lit, and the pixel is toggled
(R151). -/
def drawPixel (acc : Display × Bool) (p : Pixel) : Display × Bool :=
  (Display.set acc.1 p (!Display.get acc.1 p), acc.2 || Display.get acc.1 p)

/-- The sprite draw: the new display and whether any pixel went from set to unset. -/
def drawSprite (mode : WrapMode) (x0 y0 : Nat) (rows : List Byte) (d : Display) : Display × Bool :=
  (spritePixels mode x0 y0 rows).foldl drawPixel (d, false)

end Sys2Proof.Machine
end

