-- ==== Sys2Proof/Machine/Font.lean ====
section
/-! DEFINITION. The font parameter and its default table (10_state.md R28). -/

namespace Sys2Proof.Machine

/-- `FONT[0..79]`: 16 glyphs of 5 bytes (R28). -/
abbrev Font := Vector Byte 80

/-- The 16 glyphs of R28's default table, one row each. PRESUMED (general knowledge, not in the
source): log 2. -/
def defaultGlyphs : List (List Byte) :=
  [[0xF0, 0x90, 0x90, 0x90, 0xF0], [0x20, 0x60, 0x20, 0x20, 0x70],
   [0xF0, 0x10, 0xF0, 0x80, 0xF0], [0xF0, 0x10, 0xF0, 0x10, 0xF0]]
  ++ [[0x90, 0x90, 0xF0, 0x10, 0x10], [0xF0, 0x80, 0xF0, 0x10, 0xF0],
      [0xF0, 0x80, 0xF0, 0x90, 0xF0], [0xF0, 0x10, 0x20, 0x40, 0x40]]
  ++ [[0xF0, 0x90, 0xF0, 0x90, 0xF0], [0xF0, 0x90, 0xF0, 0x10, 0xF0],
      [0xF0, 0x90, 0xF0, 0x90, 0x90], [0xE0, 0x90, 0xE0, 0x90, 0xE0]]
  ++ [[0xF0, 0x80, 0x80, 0x80, 0xF0], [0xE0, 0x90, 0x90, 0x90, 0xE0],
      [0xF0, 0x80, 0xF0, 0x80, 0xF0], [0xF0, 0x80, 0xF0, 0x80, 0x80]]

/-- The default font: glyph `g` occupies bytes `5g` to `5g + 4` (R28). -/
def defaultFont : Font := Vector.ofFn fun k => (defaultGlyphs.getD (k / 5) []).getD (k % 5) 0

end Sys2Proof.Machine
end

