-- ==== Sys2Proof/Machine/Memory.lean ====
section
/-! DEFINITION. The 4096-byte memory (20_memory.md R50, R51) as a list of cells in one canonical
form: addresses strictly rising, all below 4096, and no cell equal to what an unlisted address reads
as, which is what Reset leaves there (10_state.md R37). -/

namespace Sys2Proof.Machine

/-- The first address above the address space: `MEM_SIZE` (00_scope.md R5, 20_memory.md R50). -/
abbrev memSize : Nat := 4096

/-- The cells that differ from what Reset leaves. Log 19. -/
abbrev Memory := List Host.Cell

/-- What an unlisted address reads as: the contents Reset installs, the font at 0x000 to 0x04F and
zero above (10_state.md R37, 20_memory.md R51). -/
def Memory.unlisted (font : Font) (a : Nat) : Byte := if h : a < 80 then font[a] else 0

/-- The listed byte at an address, if any. -/
def Memory.lookup : Memory → Nat → Option Byte
  | [], _ => none
  | c :: m, a => if c.1 = a then some c.2 else Memory.lookup m a

/-- `MEM[a]`. -/
def Memory.read (font : Font) (m : Memory) (a : Nat) : Byte :=
  (Memory.lookup m a).getD (Memory.unlisted font a)

/-- The cells with address `a` listed as holding `b`. -/
def Memory.insert : Memory → Nat → Byte → Memory
  | [], a, b => [(a, b)]
  | c :: m, a, b =>
    if a < c.1 then (a, b) :: c :: m
    else if a = c.1 then (a, b) :: m
    else c :: Memory.insert m a b

/-- The cells with address `a` not listed. -/
def Memory.erase (m : Memory) (a : Nat) : Memory := m.filter fun c => decide (c.1 ≠ a)

/-- `MEM[a] <- b`, keeping the canonical form. -/
def Memory.write (font : Font) (m : Memory) (a : Nat) (b : Byte) : Memory :=
  if b = Memory.unlisted font a then Memory.erase m a else Memory.insert m a b

/-- The canonical form. -/
abbrev Memory.wf (font : Font) (m : Memory) : Prop :=
  m.Pairwise (fun c d => c.1 < d.1) ∧
    ∀ c ∈ m, c.1 < memSize ∧ c.2 ≠ Memory.unlisted font c.1

end Sys2Proof.Machine
end

