-- ==== Sys2Proof/Machine/State.lean ====
section
/-! DEFINITION. The whole state of the machine (10_state.md R20), the conditions its error latch can
hold (R35, 60_exceptions.md R170), the ways a step can have no next state, and the machine right
after construction (R37, 70_reset_and_hazards.md R190). -/

namespace Sys2Proof.Machine

/-- The five conditions a step can raise, with their payloads (R35, R170). -/
inductive Condition where
  /-- Raised by decode, with the word as fetched (R171). -/
  | illegalOpcode (w : Word)
  /-- Raised by the fetch, `DXYN`, `FX33`, `FX55`, `FX65`, with the lowest offending address (R172). -/
  | memoryOutOfRange (a : Nat)
  /-- Raised by `2NNN` on a full stack (R173). -/
  | stackOverflow
  /-- Raised by `00EE` on an empty stack (R174). -/
  | stackUnderflow
  /-- Raised by `EX9E` and `EXA1` when `V[X]` is above 15 (R175). -/
  | keyIndexOutOfRange (v : Byte)
deriving DecidableEq, Repr

/-- The state elements of R20, the inputs and parameters of R20's last paragraph, and the model's own two
fields, the draw counter and the record of whether the run has begun. -/
structure State where
  /-- `V[0..15]` (R21). -/
  v : Vector Byte 16
  /-- `I` (R23). -/
  i : Word
  /-- `pc` (R24). -/
  pc : Word
  /-- `STACK[0..15]` (R25). -/
  stack : Vector Word 16
  /-- `SP`, 0 to 16 (R25, log 20). -/
  sp : Fin 17
  /-- `DT` (R26). -/
  dt : Byte
  /-- `ST` (R26). -/
  st : Byte
  /-- `MEM` (R27, log 19). -/
  mem : Memory
  /-- `PIX` (R29). -/
  pix : Display
  /-- `REDRAW` (R30). -/
  redraw : Bool
  /-- `POWERED` (R32). -/
  powered : Bool
  /-- `FAULT` (R35). -/
  fault : Option Condition
  /-- `KEY[0..15]`, the host's input snapshot (R33, log 4). -/
  key : Vector Bool 16
  /-- `WRAP_MODE`, held for the session (R31, log 1). -/
  wrapMode : WrapMode
  /-- `DIALECT`, held for the session (R31, log 1). -/
  dialect : Dialect
  /-- `FONT`, the table Reset installs (R28, log 2). -/
  font : Font
  /-- The model's own: how many draws (R36) have been taken (log 3). -/
  draws : Nat
  /-- The model's own: whether a step has been taken since the last Reset, which is what ends the time in
  which Configure is allowed (70_reset_and_hazards.md R194, R195; log 17). -/
  stepped : Bool
deriving DecidableEq, Repr

/-- The machine has stopped with a fault. -/
inductive Fault where
  /-- Raised by `step` while `FAULT` holds a condition: no step is enabled until the host resets
  (40_cycle.md R90, 60_exceptions.md R178). Safe: the model stops where an implementation might go
  on. Log 6. -/
  | latched (c : Condition)
deriving DecidableEq, Repr

/-- The model gives the move no meaning. -/
inductive Refusal where
  /-- Raised by `exec` for an instruction that has no meaning yet (none). Safe. -/
  | notModelled (mnemonic : String)
  /-- Raised by `step` while `POWERED` is false: no step is enabled (40_cycle.md R90). Safe. Log 6. -/
  | notPowered
  /-- Raised by `loadRom` for a ROM above 3584 bytes (70_reset_and_hazards.md R192). Safe. Log 22. -/
  | romTooLong
  /-- Raised by `configure` once a step of the run has been taken: the host "cannot change configuration
  mid-run" (R195). Safe. Log 17. -/
  | configureMidRun
deriving DecidableEq, Repr

/-- A newly constructed machine: the "after construction" column of R37 (R190, log 16). -/
def State.construct (wrapMode : WrapMode) (dialect : Dialect) (font : Font) : State where
  v := Vector.replicate 16 0
  i := 0
  pc := 0x0200
  stack := Vector.replicate 16 0
  sp := 0
  dt := 0
  st := 0
  mem := []
  pix := Display.blank
  redraw := false
  powered := false
  fault := none
  key := Vector.replicate 16 false
  wrapMode := wrapMode
  dialect := dialect
  font := font
  draws := 0
  stepped := false

/-- The machine right after reset: constructed with settings nothing is known of (log 1) and the
default font of R28 (log 2). No step is enabled until a LoadROM (R196, log 18). -/
def State.reset : State := State.construct Config.wrapMode Config.dialect defaultFont

end Sys2Proof.Machine
end

