-- ==== Sys2Proof/Machine/Ops.lean ====
section
/-! DEFINITION. The named operations on the state that every instruction is written from: accessors,
memory transfers with the range check (20_memory.md R55), the pc advance (40_cycle.md R94), the stack
(10_state.md R25), the draws (R36), raising a condition (60_exceptions.md R177), and the fetch and the
end of the cycle (R91, R92, R95). -/

namespace Sys2Proof.Machine

/-- What an instruction or a step answers. -/
abbrev Result := Host.Outcome State Fault Refusal

/-! ### Accessors -/

/-- `V[r]` (00_scope.md R8). -/
def State.reg (s : State) (r : Reg) : Byte := s.v[r.val]

/-- `V[r] <- b` (R8). -/
def State.setReg (s : State) (r : Reg) (b : Byte) : State := { s with v := s.v.set r.val b }

/-- `I <- w` (R8). -/
def State.setI (s : State) (w : Word) : State := { s with i := w }

/-- `pc <- w` (R8). -/
def State.setPc (s : State) (w : Word) : State := { s with pc := w }

/-- `DT <- b` (R8). -/
def State.setDt (s : State) (b : Byte) : State := { s with dt := b }

/-- `ST <- b` (R8). -/
def State.setSt (s : State) (b : Byte) : State := { s with st := b }

/-- `REDRAW <- b` (R8). -/
def State.setRedraw (s : State) (b : Bool) : State := { s with redraw := b }

/-- The whole display buffer replaced. -/
def State.setPix (s : State) (d : Display) : State := { s with pix := d }

/-- `FAULT <- c` (10_state.md R35). -/
def State.latch (s : State) (c : Condition) : State := { s with fault := some c }

/-- `PIX(x, y)` (R8). -/
def State.pixel (s : State) (p : Pixel) : Bool := Display.get s.pix p

/-- `KEY[k]` (R8). -/
def State.keyDown (s : State) (k : Reg) : Bool := s.key[k.val]

/-! ### Memory (20_memory.md R55) -/

/-- `MEM[a]` for an address below 4096. -/
def State.byteAt (s : State) (a : Nat) : Byte := Memory.read s.font s.mem a

/-- `MEM[a] <- b` for an address below 4096. -/
def State.setByte (s : State) (a : Nat) (b : Byte) : State :=
  { s with mem := Memory.write s.font s.mem a b }

/-- Consecutive bytes stored in ascending address order (R53). -/
def State.storeBytes : State → Nat → List Byte → State
  | s, _, [] => s
  | s, a, b :: bs => State.storeBytes (s.setByte a b) (a + 1) bs

/-- Consecutive bytes read in ascending address order (R53). -/
def State.loadBytes (s : State) (a : Nat) : Nat → List Byte
  | 0 => []
  | len + 1 => s.byteAt a :: State.loadBytes s (a + 1) len

/-- The range check of an access to `len` bytes from `base`: the condition it raises, with the lowest
address above 0xFFF, if any of them is (R55, 43_index_memory.md R140). The address is not reduced. -/
def rangeFault (base len : Nat) : Option Condition :=
  if len ≠ 0 ∧ base + len - 1 > 0xFFF then some (.memoryOutOfRange (max base 0x1000)) else none

/-- `MemRead` of `len` bytes (R55). -/
def State.readBytes (s : State) (base len : Nat) : Except Condition (List Byte) :=
  match rangeFault base len with
  | some c => .error c
  | none => .ok (s.loadBytes base len)

/-- `MemWrite` of consecutive bytes, every address tested before the first write (R55). -/
def State.writeBytes (s : State) (base : Nat) (bs : List Byte) : Except Condition State :=
  match rangeFault base bs.length with
  | some c => .error c
  | none => .ok (s.storeBytes base bs)

/-! ### The end of an instruction's own effects (40_cycle.md R91 actions 4 and 5) -/

/-- The amount added to pc after the handler: 0, 2 or 4 (R94). -/
inductive Advance where
  | stay
  | next
  | skip
deriving DecidableEq, Repr

/-- The advance in bytes (R94). -/
def Advance.bytes : Advance → Word
  | .stay => 0
  | .next => 2
  | .skip => 4

/-- The advance of a conditional skip (41_control_flow.md R100). -/
def skipIf (taken : Bool) : Advance := if taken then .skip else .next

/-- An instruction completes: pc takes the advance, modulo 65536 (R94, log 13). -/
def complete (adv : Advance) (s : State) : Result := .next (s.setPc (s.pc + adv.bytes))

/-- Raising a condition: `FAULT <- c` and nothing else changes; pc is not advanced
(60_exceptions.md R177, log 5). `step` has cleared `REDRAW` before and does not tick after. There is no
return from it but the host's Reset (R178). -/
def raise (c : Condition) (s : State) : Result := .next (s.latch c)

/-! ### The call stack (10_state.md R25) -/

/-- The full stack of R173, and otherwise the push: `STACK[SP] <- w; SP <- SP + 1` (log 10). -/
def State.push (s : State) (w : Word) : Except Condition State :=
  if h : s.sp.val < 16 then
    .ok { s with stack := s.stack.set s.sp.val w, sp := ⟨s.sp.val + 1, by omega⟩ }
  else .error .stackOverflow

/-- The empty stack of R174, and otherwise the pop: `SP <- SP − 1`, answering `STACK[SP]` and leaving
the slot as it is (log 10). -/
def State.pop (s : State) : Except Condition (Word × State) :=
  if h : s.sp.val = 0 then .error .stackUnderflow
  else .ok (s.stack[s.sp.val - 1], { s with sp := ⟨s.sp.val - 1, by omega⟩ })

/-! ### Draws (10_state.md R36, log 3) -/

/-- A fresh random byte (R36 (a)). -/
def State.drawByte (s : State) : Byte × State :=
  (Config.randomByte s.draws, { s with draws := s.draws + 1 })

/-- The keys that are down, in ascending order (45_keys_timers.md R162). -/
def State.keysDown (s : State) : List Reg := (List.finRange 16).filter s.keyDown

/-- A fresh choice among the given keys, the first being `k` (R36 (b)). -/
def State.drawKey (s : State) (k : Reg) (ks : List Reg) : Reg × State :=
  ((k :: ks).getD (Config.keyChoice s.draws s.key % (ks.length + 1)) k, { s with draws := s.draws + 1 })

/-! ### The rest of the cycle (40_cycle.md R91) -/

/-- `Step` is enabled (R90). -/
def State.stepBlocked (s : State) : Option Result :=
  if s.powered = false then some (.refused .notPowered)
  else match s.fault with
    | some c => some (.fault (.latched c))
    | none => none

/-- Actions 2 and 3: the two bytes at pc, high byte first, decoded; or the condition raised (R92, R93,
60_exceptions.md R176). -/
def State.fetchInstr (s : State) : Except Condition Instr :=
  match s.readBytes s.pc.toNat 2 with
  | .error c => .error c
  | .ok bs =>
    let w := joinBytes (bs.getD 0 0) (bs.getD 1 0)
    match decode w with
    | .ok i => .ok i
    | .error _ => .error (.illegalOpcode w)

/-- A timer's decrement, saturating at zero (R95). -/
def tickTimer (b : Byte) : Byte := if b = 0 then 0 else b - 1

/-- Action 6: both timers tick, unless the step raised a condition (R95, R177). A step has now been taken
in this run, also if it raised (log 17). -/
def State.endOfStep (s : State) : State :=
  { s with
    dt := if s.fault.isNone then tickTimer s.dt else s.dt
    st := if s.fault.isNone then tickTimer s.st else s.st
    stepped := true }

/-- The end of the step on what its actions answered. -/
def endStep : Result → Result
  | .next t => .next t.endOfStep
  | .fault f => .fault f
  | .refused r => .refused r

/-! ### Placing an instruction for the next step (log 18) -/

/-- The state with a word where the next step fetches, and that step enabled: powered, no condition
latched, and pc at the program base if nothing can be fetched from where it is. It stands for a
LoadROM (70_reset_and_hazards.md R192). -/
def State.placeWord (s : State) (w : Word) : State :=
  let pc : Word := if s.pc.toNat ≤ 0xFFE then s.pc else 0x0200
  State.storeBytes { s with pc := pc, powered := true, fault := none } pc.toNat (splitWord w)

end Sys2Proof.Machine
end

