-- ==== Sys2Proof/Machine/Operands.lean ====
section
/-! DEFINITION. The operand forms of the instructions (30_encoding.md R73): registers, immediate
bytes, 12-bit addresses, register ranges, the dialect's shift source, the sprite's origin and the
decimal digits. The one data addressing mode, `I + k`, is 43_index_memory.md R140. -/

namespace Sys2Proof.Machine

/-- `zext_16(NNN)` (R73). -/
def addrOperand (nnn : Addr12) : Word := zext16 nnn

/-- The base of every data access: `I`, as an unreduced natural (R140). -/
def State.base (s : State) : Nat := s.i.toNat

/-- The registers `V[0]` to `V[x]` in ascending order (43_index_memory.md R145, R146). -/
def regsUpTo (x : Reg) : List Reg := (List.finRange 16).filter fun k => decide (k ≤ x)

/-- The source of a shift: `V[X]` in `schip`, `V[Y]` in `cosmac` (42_alu.md R129, R131). -/
def State.shiftSource (s : State) (x y : Reg) : Byte :=
  match s.dialect with
  | .schip => s.reg x
  | .cosmac => s.reg y

/-- `I` after a register transfer: moved past it in `cosmac`, unchanged in `schip` (R145, R146). -/
def State.indexAfterTransfer (s : State) (x : Reg) : Word :=
  match s.dialect with
  | .cosmac => s.i + BitVec.ofNat 16 (x.val + 1)
  | .schip => s.i

/-- The origin column of a sprite: `V[X] mod 64` (44_display.md R151). -/
def State.originX (s : State) (x : Reg) : Nat := (s.reg x).toNat % 64

/-- The origin row of a sprite: `V[Y] mod 32` (R151). -/
def State.originY (s : State) (y : Reg) : Nat := (s.reg y).toNat % 32

/-- The decimal digits of a byte: hundreds, tens, ones (R144). -/
def bcdDigits (b : Byte) : List Byte :=
  [BitVec.ofNat 8 (b.toNat / 100), BitVec.ofNat 8 (b.toNat / 10 % 10), BitVec.ofNat 8 (b.toNat % 10)]

/-- The address of the glyph of a byte: `zext_16(V[X]) * 5` (R143). -/
def glyphAddr (b : Byte) : Word := BitVec.ofNat 16 (b.toNat * 5)

/-- A byte as a key number: itself below 16, and otherwise the condition of R175. -/
def keyOperand (b : Byte) : Except Condition Reg :=
  if h : b.toNat < 16 then .ok ⟨b.toNat, h⟩ else .error (.keyIndexOutOfRange b)

/-- The number of a key as a register value (45_keys_timers.md R162). -/
def keyNumber (k : Reg) : Byte := BitVec.ofNat 8 k.val

end Sys2Proof.Machine
end

