-- ==== Sys2Proof/Machine/Flags.lean ====
section
/-! DEFINITION. The flag computations, all into `VF` (10_state.md R22), and the write order of result
and flag (42_alu.md R120). -/

namespace Sys2Proof.Machine

/-- The register that doubles as the flag output (R22). -/
abbrev flagReg : Reg := 15

/-- A flag as the byte `VF` takes: 1 or 0. -/
def flagByte (f : Bool) : Byte := if f then 1 else 0

/-- Carry of `8XY4`: the sum exceeds 255 (R127). -/
def carry (a b : Byte) : Bool := decide (a.toNat + b.toNat > 255)

/-- NOT borrow of `a − b`: `a ≥ b` (R128, R130). -/
def noBorrow (a b : Byte) : Bool := decide (a.toNat ≥ b.toNat)

/-- The bit a right shift pushes out: bit 0 (R129). -/
def shiftedOutRight (b : Byte) : Bool := b.getLsbD 0

/-- The bit a left shift pushes out: bit 7 (R131). -/
def shiftedOutLeft (b : Byte) : Bool := b.getLsbD 7

/-- The flag of `FX1E`: the unreduced sum lies above 0xFFF (43_index_memory.md R142, log 13). -/
def indexOverflow (i : Word) (b : Byte) : Bool := decide (i.toNat + b.toNat > 0xFFF)

/-- `VF <-` the flag. -/
def State.setFlag (s : State) (f : Bool) : State := s.setReg flagReg (flagByte f)

/-- `V[X] <-` result, then `VF <-` flag: the flag is written last (R120, log 8). -/
def State.setResult (s : State) (x : Reg) (result : Byte) (f : Bool) : State :=
  (s.setReg x result).setFlag f

end Sys2Proof.Machine
end

