-- ==== Sys2Proof/Machine/Alu.lean ====
section
/-! DEFINITION. Register load, arithmetic, logic, shifts and random (42_alu.md R120 to R133). -/

namespace Sys2Proof.Machine

/-- `6XNN` load imm (R121). -/
def execLdImm (x : Reg) (nn : Byte) (s : State) : Result := complete .next (s.setReg x nn)

/-- `7XNN` add imm: no flag (R122). -/
def execAddImm (x : Reg) (nn : Byte) (s : State) : Result :=
  complete .next (s.setReg x (BitVec.ofNat 8 ((s.reg x).toNat + nn.toNat)))

/-- `8XY0` copy (R123). -/
def execLdReg (x y : Reg) (s : State) : Result := complete .next (s.setReg x (s.reg y))

/-- `8XY1` or: `VF` untouched (R124). -/
def execOr (x y : Reg) (s : State) : Result := complete .next (s.setReg x (s.reg x ||| s.reg y))

/-- `8XY2` and: `VF` untouched (R125). -/
def execAnd (x y : Reg) (s : State) : Result := complete .next (s.setReg x (s.reg x &&& s.reg y))

/-- `8XY3` xor: `VF` untouched (R126). -/
def execXor (x y : Reg) (s : State) : Result := complete .next (s.setReg x (s.reg x ^^^ s.reg y))

/-- `8XY4` add regs (R127). -/
def execAddReg (x y : Reg) (s : State) : Result :=
  complete .next (s.setResult x (BitVec.ofNat 8 ((s.reg x).toNat + (s.reg y).toNat))
    (carry (s.reg x) (s.reg y)))

/-- `8XY5` sub regs: the comparison is of the values before the subtraction (R128, C5). -/
def execSub (x y : Reg) (s : State) : Result :=
  complete .next (s.setResult x (s.reg x - s.reg y) (noBorrow (s.reg x) (s.reg y)))

/-- `8XY6` shift right of the dialect's source (R129). -/
def execShr (x y : Reg) (s : State) : Result :=
  complete .next (s.setResult x (s.shiftSource x y >>> 1) (shiftedOutRight (s.shiftSource x y)))

/-- `8XY7` sub reversed (R130). -/
def execSubn (x y : Reg) (s : State) : Result :=
  complete .next (s.setResult x (s.reg y - s.reg x) (noBorrow (s.reg y) (s.reg x)))

/-- `8XYE` shift left of the dialect's source (R131). -/
def execShl (x y : Reg) (s : State) : Result :=
  complete .next (s.setResult x (s.shiftSource x y <<< 1) (shiftedOutLeft (s.shiftSource x y)))

/-- `CXNN` random-and: a fresh draw, under no law (R132, log 3). -/
def execRnd (x : Reg) (nn : Byte) (s : State) : Result :=
  complete .next (s.drawByte.2.setReg x (s.drawByte.1 &&& nn))

end Sys2Proof.Machine
end

