-- ==== Sys2Proof/Machine/Control.lean ====
section
/-! DEFINITION. Control transfer (41_control_flow.md R100 to R108). -/

namespace Sys2Proof.Machine

/-- `00EE` return (R101). -/
def execRet (s : State) : Result :=
  match s.pop with
  | .error c => raise c s
  | .ok (target, t) => complete .stay (t.setPc target)

/-- `1NNN` jump (R102). -/
def execJp (nnn : Addr12) (s : State) : Result := complete .stay (s.setPc (addrOperand nnn))

/-- `2NNN` call: pushes the address of the next instruction (R103, log 10). -/
def execCall (nnn : Addr12) (s : State) : Result :=
  match s.push (s.pc + 2) with
  | .error c => raise c s
  | .ok t => complete .stay (t.setPc (addrOperand nnn))

/-- `BNNN` jump+offset: the offset is always `V[0]` (R104). -/
def execJpV0 (nnn : Addr12) (s : State) : Result :=
  complete .stay (s.setPc (addrOperand nnn + zext16 (s.reg 0)))

/-- `3XNN` skip-eq-imm (R105). -/
def execSeImm (x : Reg) (nn : Byte) (s : State) : Result := complete (skipIf (s.reg x == nn)) s

/-- `4XNN` skip-ne-imm (R106). -/
def execSneImm (x : Reg) (nn : Byte) (s : State) : Result := complete (skipIf (s.reg x != nn)) s

/-- `5XY0` skip-eq-reg (R107). -/
def execSeReg (x y : Reg) (s : State) : Result := complete (skipIf (s.reg x == s.reg y)) s

/-- `9XY0` skip-ne-reg (R108). -/
def execSneReg (x y : Reg) (s : State) : Result := complete (skipIf (s.reg x != s.reg y)) s

end Sys2Proof.Machine
end

