-- ==== Sys2Proof/Machine/IndexMem.lean ====
section
/-! DEFINITION. Index register and memory transfer (43_index_memory.md R140 to R146). -/

namespace Sys2Proof.Machine

/-- `ANNN` load index (R141). -/
def execLdI (nnn : Addr12) (s : State) : Result := complete .next (s.setI (addrOperand nnn))

/-- `FX1E` add to index: the flag is of the unreduced sum (R142, log 13). -/
def execAddI (x : Reg) (s : State) : Result :=
  complete .next ((s.setI (s.i + zext16 (s.reg x))).setFlag (indexOverflow s.i (s.reg x)))

/-- `FX29` font address: `V[X]` is not masked (R143). -/
def execLdF (x : Reg) (s : State) : Result := complete .next (s.setI (glyphAddr (s.reg x)))

/-- `FX33` store BCD: three digits at `I`, `I + 1`, `I + 2` (R144). -/
def execLdB (x : Reg) (s : State) : Result :=
  match s.writeBytes s.base (bcdDigits (s.reg x)) with
  | .error c => raise c s
  | .ok t => complete .next t

/-- `FX55` store regs: `V[0]` to `V[X]` from `I`, then the dialect's `I` (R145). -/
def execStRegs (x : Reg) (s : State) : Result :=
  match s.writeBytes s.base ((regsUpTo x).map s.reg) with
  | .error c => raise c s
  | .ok t => complete .next (t.setI (s.indexAfterTransfer x))

/-- The registers written one by one, in the order given. -/
def State.setRegs (s : State) (l : List (Reg × Byte)) : State :=
  l.foldl (fun t p => t.setReg p.1 p.2) s

/-- `FX65` load regs: `V[0]` to `V[X]` from `I`, then the dialect's `I` (R146). -/
def execLdRegs (x : Reg) (s : State) : Result :=
  match s.readBytes s.base (x.val + 1) with
  | .error c => raise c s
  | .ok bs => complete .next ((s.setRegs ((regsUpTo x).zip bs)).setI (s.indexAfterTransfer x))

end Sys2Proof.Machine
end

