-- ==== Sys2Proof/Machine/KeysTimers.lean ====
section
/-! DEFINITION. Key and timer instructions (45_keys_timers.md R160 to R165). -/

namespace Sys2Proof.Machine

/-- `EX9E` skip-if-key (R160). -/
def execSkp (x : Reg) (s : State) : Result :=
  match keyOperand (s.reg x) with
  | .error c => raise c s
  | .ok k => complete (skipIf (s.keyDown k)) s

/-- `EXA1` skip-if-not-key (R161). -/
def execSknp (x : Reg) (s : State) : Result :=
  match keyOperand (s.reg x) with
  | .error c => raise c s
  | .ok k => complete (skipIf (!s.keyDown k)) s

/-- `FX0A` wait-for-key: with no key down pc stays; otherwise `V[X]` takes the number of a key that is
down, a free choice among them (R162, logs 3 and 9). -/
def execLdVxK (x : Reg) (s : State) : Result :=
  match s.keysDown with
  | [] => complete .stay s
  | k :: ks => complete .next ((s.drawKey k ks).2.setReg x (keyNumber (s.drawKey k ks).1))

/-- `FX07` load delay: the value before this step's tick (R163). -/
def execLdVxDt (x : Reg) (s : State) : Result := complete .next (s.setReg x s.dt)

/-- `FX15` set delay (R164). -/
def execLdDtVx (x : Reg) (s : State) : Result := complete .next (s.setDt (s.reg x))

/-- `FX18` set sound (R165). -/
def execLdStVx (x : Reg) (s : State) : Result := complete .next (s.setSt (s.reg x))

end Sys2Proof.Machine
end

