-- ==== Sys2Proof/Machine/Screen.lean ====
section
/-! DEFINITION. The display instructions (44_display.md R150, R151). -/

namespace Sys2Proof.Machine

/-- `00E0` clear screen (R150). -/
def execCls (s : State) : Result := complete .next ((s.setPix Display.blank).setRedraw true)

/-- `DXYN` draw sprite: origin read first, all `N` bytes read and tested before anything is written,
then the pixels, `VF` and `REDRAW` (R151, log 14). -/
def execDrw (x y : Reg) (n : Nat) (s : State) : Result :=
  match s.readBytes s.base n with
  | .error c => raise c s
  | .ok rows =>
    let drawn := drawSprite s.wrapMode (s.originX x) (s.originY y) rows s.pix
    complete .next (((s.setPix drawn.1).setFlag drawn.2).setRedraw true)

end Sys2Proof.Machine
end

