-- ==== Sys2Proof/Machine/Step.lean ====
section
/-! DEFINITION. One `Step` (40_cycle.md R90, R91), and the placing of a word for the next one. -/

namespace Sys2Proof.Machine

/-- `Step`: if it is enabled, clear `REDRAW`, fetch and decode, execute and advance pc, tick the timers;
a condition raised by the fetch or the decoder ends the step (R91, 60_exceptions.md R177). -/
def step (s : State) : Host.Outcome State Fault Refusal :=
  match s.stepBlocked with
  | some r => r
  | none =>
    match (s.setRedraw false).fetchInstr with
    | .error c => endStep (raise c (s.setRedraw false))
    | .ok i => endStep (exec i (s.setRedraw false))

/-- The state with the instruction word `w` (numbered as spec/opcode_table.json numbers it) where the
next step fetches it, and that step enabled (log 18). -/
def State.withFetchWord (s : State) (nbits w : Nat) : State := s.placeWord (tableWord nbits w)

end Sys2Proof.Machine
end

