-- ==== Sys2Proof/Machine/HostOps.lean ====
section
/-! DEFINITION. What the host can do to the machine and what it gets back (70_reset_and_hazards.md
R190 to R195, 10_state.md R34). The host acts only between steps. -/

namespace Sys2Proof.Machine

/-- Reset (R191): the constructed state, with `REDRAW`, the settings and the font unchanged, and the
draw counter not rewound, so that draws after a Reset are as fresh as any (log 3). -/
def hostReset (s : State) : State :=
  { State.construct s.wrapMode s.dialect s.font with redraw := s.redraw, draws := s.draws }

/-- The longest ROM: `ROM_MAX` (00_scope.md R5). -/
def romMax : Nat := 3584

/-- LoadROM (R192): Reset, the bytes copied verbatim from 0x200, powered; a longer ROM is refused
(log 22). -/
def loadRom (rom : List Byte) (s : State) : Result :=
  if rom.length ≤ romMax then
    .next { (hostReset s).storeBytes 0x200 rom with powered := true }
  else .refused .romTooLong

/-- SetKeys (R193): the whole snapshot replaced. -/
def setKeys (keys : Vector Bool 16) (s : State) : State := { s with key := keys }

/-- Configure (R194): both settings, before the first step of a run and refused after it (R195). DESIGN
CHOICE, where "held for the session" leaves it open: a Reset starts a new run, in which Configure is
allowed again also if steps were taken before it (log 17). -/
def configure (wrapMode : WrapMode) (dialect : Dialect) (s : State) : Result :=
  if s.stepped then .refused .configureMidRun
  else .next { s with wrapMode := wrapMode, dialect := dialect }

/-- The moves of R195 on a constructed machine. -/
inductive HostMove where
  | configure (wrapMode : WrapMode) (dialect : Dialect)
  | reset
  | loadRom (rom : List Byte)
  | setKeys (keys : Vector Bool 16)
  | step
deriving DecidableEq, Repr

/-- The effect of a move (R195). -/
def hostMove (m : HostMove) (s : State) : Result :=
  match m with
  | .configure w d => configure w d s
  | .reset => .next (hostReset s)
  | .loadRom rom => loadRom rom s
  | .setKeys ks => .next (setKeys ks s)
  | .step => step s

/-- The sound output: `ST ≠ 0` (R34 (c)). -/
def State.sound (s : State) : Bool := s.st != 0

/-- The level outputs the host samples between steps (R34). -/
structure Outputs where
  pix : Display
  redraw : Bool
  sound : Bool
  fault : Option Condition
deriving DecidableEq, Repr

/-- What the host reads (R34, R195). -/
def State.outputs (s : State) : Outputs :=
  { pix := s.pix, redraw := s.redraw, sound := s.sound, fault := s.fault }

end Sys2Proof.Machine
end

