-- ==== Sys2Proof/Safety.lean ====
section
/-! DEFINITION. The terms claims are stated in: when a step is enabled, what a safe step is, the
invariant, what a transition leaves unchanged, and instruction words written out from the spec's
patterns (30_encoding.md R72). -/

namespace Sys2Proof.Machine

/-- `Step` is enabled (40_cycle.md R90). -/
abbrev State.Enabled (s : State) : Prop := s.powered = true ∧ s.fault = none

/-- A step that completes without raising a condition: what a claim about a program asks of every
step (60_exceptions.md R177, last sentence). -/
def SafeStep (s : State) : Prop := ∃ t, step s = .next t ∧ t.fault = none

/-! ### Frames -/

/-- The parts of the state a frame speaks of. -/
inductive Part where
  | regs | index | pc | stack | delay | sound | memory | pixels | redraw | fault | settings | draws
  | stepped
deriving DecidableEq, Repr

/-- The part reads the same in both states: memory through one byte at a time, registers, pixels, keys
and stack slots one at a time. -/
def Part.Same : Part → State → State → Prop
  | .regs, s, t => ∀ r, t.reg r = s.reg r
  | .index, s, t => t.i = s.i
  | .pc, s, t => t.pc = s.pc
  | .stack, s, t => t.sp = s.sp ∧ ∀ k : Fin 16, t.stack[k.val] = s.stack[k.val]
  | .delay, s, t => t.dt = s.dt
  | .sound, s, t => t.st = s.st
  | .memory, s, t => ∀ a, t.byteAt a = s.byteAt a
  | .pixels, s, t => ∀ p, t.pixel p = s.pixel p
  | .redraw, s, t => t.redraw = s.redraw
  | .fault, s, t => t.fault = s.fault
  | .settings, s, t => t.powered = s.powered ∧ (∀ k, t.keyDown k = s.keyDown k) ∧
      t.wrapMode = s.wrapMode ∧ t.dialect = s.dialect ∧ t.font = s.font
  | .draws, s, t => t.draws = s.draws
  | .stepped, s, t => t.stepped = s.stepped

/-- From `s` to `t` every part but the listed ones is unchanged. -/
def UnchangedExcept (parts : List Part) (s t : State) : Prop := ∀ p, p ∉ parts → p.Same s t

/-- Every register but the listed ones is unchanged. -/
def RegsUnchangedExcept (regs : List Reg) (s t : State) : Prop :=
  ∀ r, r ∉ regs → t.reg r = s.reg r

/-- Every byte of memory outside `len` bytes from `base` reads as before. -/
def BytesUnchangedOutside (base len : Nat) (s t : State) : Prop :=
  ∀ a, ¬ (base ≤ a ∧ a < base + len) → t.byteAt a = s.byteAt a

/-- `V[r]` as a natural number. -/
abbrev State.regNat (s : State) (r : Reg) : Nat := (s.reg r).toNat

/-! ### Words written out from the patterns (30_encoding.md R72) -/

/-- The word `CNNN`. -/
def wordCNNN (c : BitVec 4) (nnn : Addr12) : Word := c ++ nnn

/-- The word `CXNN`. -/
def wordCXNN (c : BitVec 4) (x : Reg) (nn : Byte) : Word := c ++ BitVec.ofNat 4 x.val ++ nn

/-- The word `CXYN`. -/
def wordCXYN (c : BitVec 4) (x y : Reg) (n : BitVec 4) : Word :=
  c ++ BitVec.ofNat 4 x.val ++ BitVec.ofNat 4 y.val ++ n

end Sys2Proof.Machine

namespace Sys2Proof

/-! ### Kinds of instruction -/

/-- The two instructions that touch the display (44_display.md R150, R151). -/
def Instr.touchesDisplay : Instr → Bool
  | .cls | .drw _ _ _ => true
  | _ => false

/-- The instructions that write `VF` as a flag (10_state.md R22). -/
def Instr.writesFlag : Instr → Bool
  | .addReg _ _ | .sub _ _ | .shr _ _ | .subn _ _ | .shl _ _ | .drw _ _ _ | .addI _ => true
  | _ => false

/-- The registers an instruction writes as its destination, beside `VF` as a flag (10_state.md R38). -/
def Instr.destRegs : Instr → List Reg
  | .ldImm x _ | .addImm x _ | .ldReg x _ | .or x _ | .and x _ | .xor x _ | .addReg x _ | .sub x _
  | .shr x _ | .subn x _ | .shl x _ | .rnd x _ | .ldVxDt x | .ldVxK x => [x]
  | .ldRegs x => Machine.regsUpTo x
  | _ => []

end Sys2Proof

namespace Sys2Proof.Machine

/-- The bytes an instruction reads beside its own word, as a base and a length (20_memory.md R61). -/
def readWindow (i : Instr) (s : State) : Nat × Nat :=
  match i with
  | .drw _ _ n => (s.base, n)
  | .ldRegs x => (s.base, x.val + 1)
  | _ => (s.base, 0)

/-- The bytes an instruction writes, as a base and a length (R61). -/
def writeWindow (i : Instr) (s : State) : Nat × Nat :=
  match i with
  | .ldB _ => (s.base, 3)
  | .stRegs x => (s.base, x.val + 1)
  | _ => (s.base, 0)

/-- The sprite bit drawn at column offset `b` of row `r`: bit 7 − b of the byte at `I + r`
(44_display.md R151). -/
def State.spriteBit (s : State) (r b : Nat) : Bool := (s.byteAt (s.base + r)).getLsbD (7 - b)

/-- A sprite of `n` rows at the origin `V[x] mod 64`, `V[y] mod 32` draws on pixel `p`: some set bit of
it lands there, by wrapping in `wrap` and by lying on the screen in `clip` (R151). -/
def State.DrawsOn (s : State) (x y : Reg) (n : Nat) (p : Pixel) : Prop :=
  ∃ r b, r < n ∧ b < 8 ∧ s.spriteBit r b = true ∧
    (match s.wrapMode with
      | .wrap => p.1.val = (s.regNat x % 64 + b) % 64 ∧ p.2.val = (s.regNat y % 32 + r) % 32
      | .clip => p.1.val = s.regNat x % 64 + b ∧ p.2.val = s.regNat y % 32 + r)

/-- A state is parked: its next word is a jump to itself (40_cycle.md R98). -/
def State.Parked (s : State) : Prop := ∃ nnn, s.fetchInstr = .ok (.jp nnn) ∧ zext16 nnn = s.pc

/-! ### The invariant -/

/-- Instruction `i` reaches an address above 0xFFF from `I`, and `a` is the lowest of those it reaches
(60_exceptions.md R172, R176). -/
def ReachesOut (i : Instr) (s : State) (a : Nat) : Prop :=
  ∃ len, (readWindow i s = (s.base, len) ∨ writeWindow i s = (s.base, len)) ∧
    len ≠ 0 ∧ memSize < s.base + len ∧ a = max s.base 0x1000

/-- A latched condition is the one that the instruction at pc raises in the state it is latched in
(60_exceptions.md R171 to R177; decision D13, log 5): pc is not advanced, and what raised it still stands. -/
def State.LatchTruthful (s : State) : Prop :=
  match s.fault with
  | none => True
  | some (.illegalOpcode w) => s.pc.toNat ≤ 0xFFE ∧
      w.toNat = (s.byteAt s.pc.toNat).toNat * 256 + (s.byteAt (s.pc.toNat + 1)).toNat ∧
      decode w = .error (.illegalOpcode w)
  | some (.memoryOutOfRange a) => (0xFFE < s.pc.toNat ∧ a = max s.pc.toNat 0x1000) ∨
      ∃ i, s.fetchInstr = .ok i ∧ ReachesOut i s a
  | some .stackOverflow => s.sp.val = 16 ∧ ∃ nnn, s.fetchInstr = .ok (.call nnn)
  | some .stackUnderflow => s.sp.val = 0 ∧ s.fetchInstr = .ok .ret
  | some (.keyIndexOutOfRange b) => 15 < b.toNat ∧
      ∃ x, (s.fetchInstr = .ok (.skp x) ∨ s.fetchInstr = .ok (.sknp x)) ∧ s.reg x = b

/-- What every reachable state has: memory in its canonical form inside the address space (20_memory.md
R50, log 19), a truthful error latch, a condition latched only on a powered machine and only by a step
of this run, and a step taken only on a powered machine (40_cycle.md R90, log 17). -/
structure State.Inv (s : State) : Prop where
  memory : Memory.wf s.font s.mem
  latch : s.LatchTruthful
  power : s.fault ≠ none → s.powered = true
  begun : s.fault ≠ none → s.stepped = true
  run : s.stepped = true → s.powered = true

/-! ### Several steps -/

/-- `n` steps of the machine, stopping at the first that has no next state. -/
def runSteps : Nat → State → Result
  | 0, s => .next s
  | n + 1, s =>
    match step s with
    | .next t => runSteps n t
    | .fault f => .fault f
    | .refused r => .refused r

end Sys2Proof.Machine
end

