-- ==== Sys2Proof/Certificates/Slice0/Obligations.lean ====
section
/-! DEFINITION. The statements about the machine, one definition each, from the numbered rules of spec/.
A statement that rests on a decision of the spec (92_eei_decisions.md) or of the model (an entry of the
assumption log) says so in its docstring. -/

open Sys2Proof Sys2Proof.Machine

/-! ### Encoding -/

/-- Decode and encode agree on every well-formed instruction, also at the head of longer bytes
(30_encoding.md, sections 1 to 3). -/
def Obligations.DecodeInvertsEncode : Prop :=
  ∀ i : Instr, i.WellFormed = true →
    decode (encode i) = .ok i ∧ ∀ rest, decodeBytes (encodeBytes i ++ rest) = .ok (i, rest)

/-- A word that decodes is the encoding of what it decodes to, which is well formed: no two words spell
the same instruction (30_encoding.md, sections 1 to 3). -/
def Obligations.EncodeInvertsDecode : Prop :=
  ∀ (w : Word) (i : Instr), decode w = .ok i → encode i = w ∧ i.WellFormed = true

/-- R74, R76: a word spells an instruction exactly if it matches that instruction's row; there are 34
rows, no two of which match the same word, and a word that matches none is rejected. -/
def Obligations.WordSpellsInstructionIffRowMatches : Prop :=
  opcodeRows.length = 34 ∧ opcodeRows.Nodup ∧
  (∀ (w : Word) (i : Instr), decode w = .ok i →
    opcodeRow i ∈ opcodeRows ∧ w &&& (opcodeRow i).1 = (opcodeRow i).2) ∧
  (∀ (w : Word), ∀ row ∈ opcodeRows, w &&& row.1 = row.2 → ∃ i, decode w = .ok i ∧ opcodeRow i = row) ∧
  (∀ w : Word, (∀ row ∈ opcodeRows, w &&& row.1 ≠ row.2) → decode w = .error (.illegalOpcode w))

/-- The illegal words, category by category (30_encoding.md R75, decision D18 of the spec). -/
def Obligations.IllegalWordsByCategory : Prop :=
  ∀ w : Word, decode w = .error (.illegalOpcode w) ↔
    (w.toNat / 0x1000 = 0x0 ∧ w ≠ 0x00E0#16 ∧ w ≠ 0x00EE#16) ∨
    ((w.toNat / 0x1000 = 0x5 ∨ w.toNat / 0x1000 = 0x9) ∧ w.toNat % 16 ≠ 0) ∨
    (w.toNat / 0x1000 = 0x8 ∧ w.toNat % 16 ∈ [0x8, 0x9, 0xA, 0xB, 0xC, 0xD, 0xF]) ∨
    (w.toNat / 0x1000 = 0xE ∧ w.toNat % 256 ∉ [0x9E, 0xA1]) ∨
    (w.toNat / 0x1000 = 0xF ∧
      w.toNat % 256 ∉ [0x07, 0x0A, 0x15, 0x18, 0x1E, 0x29, 0x33, 0x55, 0x65])

/-- Words of the spec's vectors (95_test_vectors.md) decode to what they stand for. -/
def Obligations.SampleWordsDecode : Prop :=
  decode 0x00E0#16 = .ok .cls ∧ decode 0x220A#16 = .ok (.call 0x20A) ∧
  decode 0x5340#16 = .ok (.seReg 3 4) ∧ decode 0x6A2F#16 = .ok (.ldImm 0xA 0x2F) ∧
  decode 0x8126#16 = .ok (.shr 1 2) ∧ decode 0xAFFF#16 = .ok (.ldI 0xFFF) ∧
  decode 0xD01F#16 = .ok (.drw 0 1 15) ∧ decode 0xE5A1#16 = .ok (.sknp 5) ∧
  decode 0xF265#16 = .ok (.ldRegs 2) ∧ decode 0x5341#16 = .error (.illegalOpcode 0x5341#16)

/-! ### The step -/

/-- An enabled step runs the instruction that the two bytes at pc, high byte first, decode to (20_memory.md
R52, 40_cycle.md R91): on the state with `REDRAW` cleared, and followed by the end of the cycle (log 25). -/
def Obligations.StepRunsDecodedInstruction : Prop :=
  ∀ (s : State) (w : Word) (i : Instr), s.Enabled → s.pc.toNat ≤ 0xFFE →
    w.toNat = (s.byteAt s.pc.toNat).toNat * 256 + (s.byteAt (s.pc.toNat + 1)).toNat →
    decode w = .ok i → step s = endStep (exec i (s.setRedraw false))

/-- An enabled step on a word that spells no instruction latches it, and has changed only `REDRAW`, `FAULT`
and the model's record that a step was taken (60_exceptions.md R171, R177; the latch is decision D13 of the
spec, log 5; the record is log 17). -/
def Obligations.StepOnIllegalWordLatchesIt : Prop :=
  ∀ (s : State) (w : Word), s.Enabled → s.pc.toNat ≤ 0xFFE →
    w.toNat = (s.byteAt s.pc.toNat).toNat * 256 + (s.byteAt (s.pc.toNat + 1)).toNat →
    (∀ i, decode w ≠ .ok i) →
    ∃ t, step s = .next t ∧ t.fault = some (.illegalOpcode w) ∧ t.redraw = false ∧
      UnchangedExcept [.redraw, .fault, .stepped] s t

/-- An enabled step from a pc at which two bytes cannot be read latches the first address above 0xFFF
(40_cycle.md R92; decisions D4, D13 of the spec, logs 5, 7; the record of a step taken is log 17). -/
def Obligations.StepOnUnfetchablePcLatches : Prop :=
  ∀ s : State, s.Enabled → 0xFFE < s.pc.toNat →
    ∃ t, step s = .next t ∧ t.fault = some (.memoryOutOfRange (max s.pc.toNat 0x1000)) ∧
      t.redraw = false ∧ UnchangedExcept [.redraw, .fault, .stepped] s t

/-- A step has a next state exactly if it is enabled, `POWERED` and `FAULT = none`: no instruction is
refused and none stops the machine otherwise (40_cycle.md R90; decision D14 of the spec, log 6). -/
def Obligations.StepAnswersNextIffEnabled : Prop :=
  ∀ s : State, (∃ t, step s = .next t) ↔ s.Enabled

/-- A step that raises a condition is precise: beside `REDRAW`, cleared, `FAULT` and the model's record that a
step was taken nothing has changed (60_exceptions.md R177; decision D13 of the spec, log 5; the record is
log 17). -/
def Obligations.RaisingStepIsPrecise : Prop :=
  ∀ s t : State, step s = .next t → t.fault ≠ none →
    t.redraw = false ∧ UnchangedExcept [.redraw, .fault, .stepped] s t

/-- Which handler raises which condition, and when: exactly the causes of 60_exceptions.md R170 (the four
are decisions D3, D4, D10 of the spec). -/
def Obligations.HandlersRaiseExactlyTheirConditions : Prop :=
  ∀ (i : Instr) (s t : State), s.fault = none → exec i s = .next t →
    t.fault =
      match i with
      | .ret => if s.sp.val = 0 then some .stackUnderflow else none
      | .call _ => if s.sp.val = 16 then some .stackOverflow else none
      | .skp x => if 15 < s.regNat x then some (.keyIndexOutOfRange (s.reg x)) else none
      | .sknp x => if 15 < s.regNat x then some (.keyIndexOutOfRange (s.reg x)) else none
      | .drw _ _ n =>
        if 1 ≤ n ∧ 0xFFF < s.i.toNat + n - 1 then some (.memoryOutOfRange (max s.i.toNat 0x1000)) else none
      | .ldB _ => if 0xFFF < s.i.toNat + 2 then some (.memoryOutOfRange (max s.i.toNat 0x1000)) else none
      | .stRegs x =>
        if 0xFFF < s.i.toNat + x.val then some (.memoryOutOfRange (max s.i.toNat 0x1000)) else none
      | .ldRegs x =>
        if 0xFFF < s.i.toNat + x.val then some (.memoryOutOfRange (max s.i.toNat 0x1000)) else none
      | _ => none

/-- Each handler that raises leaves everything but `FAULT` as it was (60_exceptions.md R173 to R175, R177;
decisions D3, D4, D10, D13 of the spec, logs 5, 7, 11, 15). -/
def Obligations.RaisingHandlersChangeOnlyFault : Prop :=
  ∀ (s : State) (x y : Reg) (nnn : Addr12) (n : Nat),
    (s.sp.val = 0 → exec .ret s = .next (s.latch .stackUnderflow)) ∧
    (s.sp.val = 16 → exec (.call nnn) s = .next (s.latch .stackOverflow)) ∧
    (15 < s.regNat x →
      exec (.skp x) s = .next (s.latch (.keyIndexOutOfRange (s.reg x))) ∧
      exec (.sknp x) s = .next (s.latch (.keyIndexOutOfRange (s.reg x)))) ∧
    (1 ≤ n ∧ 0xFFF < s.i.toNat + n - 1 →
      exec (.drw x y n) s = .next (s.latch (.memoryOutOfRange (max s.i.toNat 0x1000)))) ∧
    (0xFFF < s.i.toNat + 2 →
      exec (.ldB x) s = .next (s.latch (.memoryOutOfRange (max s.i.toNat 0x1000)))) ∧
    (0xFFF < s.i.toNat + x.val →
      exec (.stRegs x) s = .next (s.latch (.memoryOutOfRange (max s.i.toNat 0x1000))) ∧
      exec (.ldRegs x) s = .next (s.latch (.memoryOutOfRange (max s.i.toNat 0x1000))))

/-- A step is safe, completing without raising, exactly if it is enabled and stays within the bounds the
hardware does not police (70_reset_and_hazards.md R200; that leaving them is a fault is decisions D3, D4,
D10 of the spec, logs 7, 11, 15). -/
def Obligations.SafeStepIffWithinBounds : Prop :=
  ∀ s : State, SafeStep s ↔ s.Enabled ∧ ∃ i, s.fetchInstr = .ok i ∧
    match i with
    | .ret => s.sp.val ≠ 0
    | .call _ => s.sp.val < 16
    | .skp x => s.regNat x < 16
    | .sknp x => s.regNat x < 16
    | .drw _ _ n => n = 0 ∨ s.i.toNat + n ≤ 0x1000
    | .ldB _ => s.i.toNat + 3 ≤ 0x1000
    | .stRegs x => s.i.toNat + x.val + 1 ≤ 0x1000
    | .ldRegs x => s.i.toNat + x.val + 1 ≤ 0x1000
    | _ => True

/-- In every step that completes, both timers lose one after the instruction's own effects and stay at zero
once there, whatever the instruction (40_cycle.md R95); in a step that raised a condition they do not move
(60_exceptions.md R177: this spec's choice, decision D13, log 5). The record of a step taken is log 17. -/
def Obligations.TimersTickOncePerCompletedStep : Prop :=
  ∀ s t : State, step s = .next t →
    (t.fault = none → ∃ i u, s.fetchInstr = .ok i ∧ exec i (s.setRedraw false) = .next u ∧
      t.dt.toNat = u.dt.toNat - 1 ∧ t.st.toNat = u.st.toNat - 1 ∧
      UnchangedExcept [.delay, .sound, .stepped] u t) ∧
    (t.fault ≠ none → t.dt = s.dt ∧ t.st = s.st)

/-- From a parked state the machine steps for ever and only the timers count down, to zero and no further,
and `REDRAW` is false (40_cycle.md R98, a convention of the spec, decision D20; the document's timer
property S7; the record of a step taken is log 17). -/
def Obligations.ParkedMachineCountsDown : Prop :=
  ∀ (s : State) (n : Nat), s.Enabled → s.Parked →
    ∃ t, runSteps n s = .next t ∧ t.dt.toNat = s.dt.toNat - n ∧ t.st.toNat = s.st.toNat - n ∧
      (n ≠ 0 → t.redraw = false) ∧ UnchangedExcept [.delay, .sound, .redraw, .stepped] s t

/-- No step changes `POWERED`, the key snapshot, the two settings or the font (10_state.md R31, R32, R33). -/
def Obligations.StepKeepsSettingsAndInputs : Prop :=
  ∀ s t : State, step s = .next t → Part.settings.Same s t

/-! ### Control transfer -/

/-- R102: `1NNN` puts NNN into pc and changes nothing else. -/
def Obligations.Jump : Prop :=
  ∀ (nnn : Addr12) (s : State), decode (wordCNNN 0x1 nnn) = .ok (.jp nnn) ∧
    ∃ t, exec (.jp nnn) s = .next t ∧ t.pc.toNat = nnn.toNat ∧ UnchangedExcept [.pc] s t

/-- R104: `BNNN` puts NNN + V0 into pc, unreduced, and changes nothing else. -/
def Obligations.JumpPlusV0 : Prop :=
  ∀ (nnn : Addr12) (s : State), decode (wordCNNN 0xB nnn) = .ok (.jpV0 nnn) ∧
    ∃ t, exec (.jpV0 nnn) s = .next t ∧ t.pc.toNat = nnn.toNat + s.regNat 0 ∧
      UnchangedExcept [.pc] s t

/-- `2NNN` with room on the stack pushes the address of the next instruction and jumps (41_control_flow.md
R103; what is pushed and where are decisions D1, D2 of the spec, log 10). -/
def Obligations.CallPushesReturnAddress : Prop :=
  ∀ (nnn : Addr12) (s : State), decode (wordCNNN 0x2 nnn) = .ok (.call nnn) ∧
    (s.sp.val < 16 → ∃ t, exec (.call nnn) s = .next t ∧ t.pc.toNat = nnn.toNat ∧
      t.sp.val = s.sp.val + 1 ∧
      (∀ k : Fin 16, t.stack[k.val] = if k.val = s.sp.val then s.pc + 2 else s.stack[k.val]) ∧
      UnchangedExcept [.pc, .stack] s t)

/-- `00EE` with an entry on the stack pops it into pc and leaves every slot as it is (41_control_flow.md
R101; decisions D1, D2 of the spec, log 10). -/
def Obligations.ReturnPopsIntoPc : Prop :=
  ∀ s : State, decode 0x00EE#16 = .ok .ret ∧
    (s.sp.val ≠ 0 → ∃ t, exec .ret s = .next t ∧ t.sp.val = s.sp.val - 1 ∧
      (∀ k : Fin 16, k.val = s.sp.val - 1 → t.pc = s.stack[k.val]) ∧
      (∀ k : Fin 16, t.stack[k.val] = s.stack[k.val]) ∧ UnchangedExcept [.pc, .stack] s t)

/-- A return from any state whose stack is as the call left it resumes at the instruction after the call,
with the stack pointer as before it (the document's property S8; decisions D1, D2 of the spec, log 10). -/
def Obligations.CallThenReturnResumesAfterCall : Prop :=
  ∀ (nnn : Addr12) (s t u : State), s.sp.val < 16 → exec (.call nnn) s = .next t →
    Part.stack.Same t u →
    ∃ v, exec .ret u = .next v ∧ v.pc = s.pc + 2 ∧ v.sp = s.sp

/-- R105, R106: `3XNN` skips exactly if V[X] = NN, `4XNN` exactly if not; nothing but pc changes. -/
def Obligations.SkipsOnImmediate : Prop :=
  ∀ (x : Reg) (nn : Byte) (s : State),
    decode (wordCXNN 0x3 x nn) = .ok (.seImm x nn) ∧ decode (wordCXNN 0x4 x nn) = .ok (.sneImm x nn) ∧
    (∃ t, exec (.seImm x nn) s = .next t ∧
      t.pc = s.pc + (if s.regNat x = nn.toNat then 4 else 2) ∧ UnchangedExcept [.pc] s t) ∧
    (∃ t, exec (.sneImm x nn) s = .next t ∧
      t.pc = s.pc + (if s.regNat x = nn.toNat then 2 else 4) ∧ UnchangedExcept [.pc] s t)

/-- `5XY0` skips exactly if V[X] = V[Y], `9XY0` exactly if not; nothing but pc changes (41_control_flow.md R107,
R108); a low nibble other than 0 is illegal (30_encoding.md R75, decision D18 of the spec, log 21). -/
def Obligations.SkipsOnRegister : Prop :=
  ∀ (x y : Reg) (s : State),
    decode (wordCXYN 0x5 x y 0) = .ok (.seReg x y) ∧ decode (wordCXYN 0x9 x y 0) = .ok (.sneReg x y) ∧
    (∀ n : BitVec 4, n ≠ 0 →
      decode (wordCXYN 0x5 x y n) = .error (.illegalOpcode (wordCXYN 0x5 x y n)) ∧
      decode (wordCXYN 0x9 x y n) = .error (.illegalOpcode (wordCXYN 0x9 x y n))) ∧
    (∃ t, exec (.seReg x y) s = .next t ∧
      t.pc = s.pc + (if s.regNat x = s.regNat y then 4 else 2) ∧ UnchangedExcept [.pc] s t) ∧
    (∃ t, exec (.sneReg x y) s = .next t ∧
      t.pc = s.pc + (if s.regNat x = s.regNat y then 2 else 4) ∧ UnchangedExcept [.pc] s t)

/-- Only a call and a return touch the stack, and only a call writes a slot (10_state.md R25; decision D2
of the spec). -/
def Obligations.StackTouchedOnlyByCallAndReturn : Prop :=
  ∀ (i : Instr) (s t : State), exec i s = .next t →
    (t.sp ≠ s.sp → i = .ret ∨ ∃ nnn, i = .call nnn) ∧
    (∀ k : Fin 16, t.stack[k.val] ≠ s.stack[k.val] → ∃ nnn, i = .call nnn)

/-! ### Registers, arithmetic, logic -/

/-- R121: `6XNN` puts NN into V[X]. -/
def Obligations.LoadImmediate : Prop :=
  ∀ (x : Reg) (nn : Byte) (s : State), decode (wordCXNN 0x6 x nn) = .ok (.ldImm x nn) ∧
    ∃ t, exec (.ldImm x nn) s = .next t ∧ t.reg x = nn ∧ t.pc = s.pc + 2 ∧
      RegsUnchangedExcept [x] s t ∧ UnchangedExcept [.regs, .pc] s t

/-- R122: `7XNN` adds NN to V[X] modulo 256 and writes no flag. -/
def Obligations.AddImmediate : Prop :=
  ∀ (x : Reg) (nn : Byte) (s : State), decode (wordCXNN 0x7 x nn) = .ok (.addImm x nn) ∧
    ∃ t, exec (.addImm x nn) s = .next t ∧ t.regNat x = (s.regNat x + nn.toNat) % 256 ∧
      t.pc = s.pc + 2 ∧ RegsUnchangedExcept [x] s t ∧ UnchangedExcept [.regs, .pc] s t

/-- R123: `8XY0` copies V[Y] into V[X]. -/
def Obligations.CopyRegister : Prop :=
  ∀ (x y : Reg) (s : State), decode (wordCXYN 0x8 x y 0x0) = .ok (.ldReg x y) ∧
    ∃ t, exec (.ldReg x y) s = .next t ∧ t.reg x = s.reg y ∧ t.pc = s.pc + 2 ∧
      RegsUnchangedExcept [x] s t ∧ UnchangedExcept [.regs, .pc] s t

/-- R124 to R126: `8XY1`, `8XY2`, `8XY3` combine V[X] and V[Y] bit by bit and write no flag. -/
def Obligations.LogicOperations : Prop :=
  ∀ (x y : Reg) (s : State),
    (decode (wordCXYN 0x8 x y 0x1) = .ok (.or x y) ∧
      ∃ t, exec (.or x y) s = .next t ∧
        (∀ k, (t.reg x).getLsbD k = ((s.reg x).getLsbD k || (s.reg y).getLsbD k)) ∧
        t.pc = s.pc + 2 ∧ RegsUnchangedExcept [x] s t ∧ UnchangedExcept [.regs, .pc] s t) ∧
    (decode (wordCXYN 0x8 x y 0x2) = .ok (.and x y) ∧
      ∃ t, exec (.and x y) s = .next t ∧
        (∀ k, (t.reg x).getLsbD k = ((s.reg x).getLsbD k && (s.reg y).getLsbD k)) ∧
        t.pc = s.pc + 2 ∧ RegsUnchangedExcept [x] s t ∧ UnchangedExcept [.regs, .pc] s t) ∧
    (decode (wordCXYN 0x8 x y 0x3) = .ok (.xor x y) ∧
      ∃ t, exec (.xor x y) s = .next t ∧
        (∀ k, (t.reg x).getLsbD k = ((s.reg x).getLsbD k ^^ (s.reg y).getLsbD k)) ∧
        t.pc = s.pc + 2 ∧ RegsUnchangedExcept [x] s t ∧ UnchangedExcept [.regs, .pc] s t)

/-- `8XY4`: sum modulo 256 and carry (42_alu.md R127); with X = 15 the flag remains (R120, decision D7 of the
spec, log 8). -/
def Obligations.AddRegistersWithCarry : Prop :=
  ∀ (x y : Reg) (s : State), decode (wordCXYN 0x8 x y 0x4) = .ok (.addReg x y) ∧
    ∃ t, exec (.addReg x y) s = .next t ∧
      (x ≠ 15 → t.regNat x = (s.regNat x + s.regNat y) % 256) ∧
      t.regNat 15 = (if s.regNat x + s.regNat y > 255 then 1 else 0) ∧
      t.pc = s.pc + 2 ∧ RegsUnchangedExcept [x, 15] s t ∧ UnchangedExcept [.regs, .pc] s t

/-- `8XY5` and `8XY7`: difference modulo 256 and NOT borrow of the values before the subtraction (42_alu.md
R128, R130); with X = 15 the flag remains (R120, decision D7 of the spec, log 8). -/
def Obligations.SubtractionsWithNoBorrow : Prop :=
  ∀ (x y : Reg) (s : State),
    (decode (wordCXYN 0x8 x y 0x5) = .ok (.sub x y) ∧
      ∃ t, exec (.sub x y) s = .next t ∧
        (x ≠ 15 → t.regNat x = (s.regNat x + 256 - s.regNat y) % 256) ∧
        t.regNat 15 = (if s.regNat x ≥ s.regNat y then 1 else 0) ∧
        t.pc = s.pc + 2 ∧ RegsUnchangedExcept [x, 15] s t ∧ UnchangedExcept [.regs, .pc] s t) ∧
    (decode (wordCXYN 0x8 x y 0x7) = .ok (.subn x y) ∧
      ∃ t, exec (.subn x y) s = .next t ∧
        (x ≠ 15 → t.regNat x = (s.regNat y + 256 - s.regNat x) % 256) ∧
        t.regNat 15 = (if s.regNat y ≥ s.regNat x then 1 else 0) ∧
        t.pc = s.pc + 2 ∧ RegsUnchangedExcept [x, 15] s t ∧ UnchangedExcept [.regs, .pc] s t)

/-- `8XY6` and `8XYE`: the source is V[X] in `schip` and V[Y] in `cosmac`; V[X] takes it shifted by one and VF
the bit shifted out (42_alu.md R129, R131); with X = 15 the flag remains (R120, decision D7 of the spec, log
8). -/
def Obligations.ShiftsOfTheDialectsSource : Prop :=
  ∀ (x y : Reg) (s : State) (src : Nat),
    src = (if s.dialect = .schip then s.regNat x else s.regNat y) →
    (decode (wordCXYN 0x8 x y 0x6) = .ok (.shr x y) ∧
      ∃ t, exec (.shr x y) s = .next t ∧
        (x ≠ 15 → t.regNat x = src / 2) ∧ t.regNat 15 = src % 2 ∧
        t.pc = s.pc + 2 ∧ RegsUnchangedExcept [x, 15] s t ∧ UnchangedExcept [.regs, .pc] s t) ∧
    (decode (wordCXYN 0x8 x y 0xE) = .ok (.shl x y) ∧
      ∃ t, exec (.shl x y) s = .next t ∧
        (x ≠ 15 → t.regNat x = 2 * src % 256) ∧ t.regNat 15 = src / 128 ∧
        t.pc = s.pc + 2 ∧ RegsUnchangedExcept [x, 15] s t ∧ UnchangedExcept [.regs, .pc] s t)

/-- `CXNN`: V[X] takes the fresh draw masked by NN, whatever byte is drawn; no bit outside NN is set (42_alu.md
R132; the draw is decision D12 of the spec, log 3: the statement holds for every value of it). -/
def Obligations.RandomByteIsMasked : Prop :=
  ∀ (x : Reg) (nn : Byte) (s : State), decode (wordCXNN 0xC x nn) = .ok (.rnd x nn) ∧
    ∃ t, exec (.rnd x nn) s = .next t ∧ t.reg x = Config.randomByte s.draws &&& nn ∧
      t.reg x &&& ~~~nn = 0 ∧ t.draws = s.draws + 1 ∧
      t.pc = s.pc + 2 ∧ RegsUnchangedExcept [x] s t ∧ UnchangedExcept [.regs, .pc, .draws] s t

/-- VF changes only by the seven flag instructions, or as a destination register; and a flag instruction that
completes leaves it 0 or 1 (10_state.md R22; X = 15 rests on decision D7 of the spec, log 8). -/
def Obligations.VfWrittenOnlyAsFlagOrDestination : Prop :=
  ∀ (i : Instr) (s t : State), exec i s = .next t →
    (t.reg 15 ≠ s.reg 15 → i.writesFlag = true ∨ 15 ∈ i.destRegs) ∧
    (i.writesFlag = true → s.fault = none → t.fault = none → t.reg 15 = 0 ∨ t.reg 15 = 1)

/-- A register changes only as a destination of the instruction, or as VF taking its flag (10_state.md R38). -/
def Obligations.RegistersChangeOnlyAsDestinations : Prop :=
  ∀ (i : Instr) (s t : State) (r : Reg), exec i s = .next t → t.reg r ≠ s.reg r →
    r ∈ i.destRegs ∨ (i.writesFlag = true ∧ r = 15)

/-! ### Index register and memory -/

/-- R141: `ANNN` puts NNN, zero-extended, into I. -/
def Obligations.LoadIndex : Prop :=
  ∀ (nnn : Addr12) (s : State), decode (wordCNNN 0xA nnn) = .ok (.ldI nnn) ∧
    ∃ t, exec (.ldI nnn) s = .next t ∧ t.i.toNat = nnn.toNat ∧ t.pc = s.pc + 2 ∧
      UnchangedExcept [.index, .pc] s t

/-- R143: `FX29` puts five times the whole byte V[X] into I. -/
def Obligations.FontAddress : Prop :=
  ∀ (x : Reg) (s : State), decode (wordCXNN 0xF x 0x29) = .ok (.ldF x) ∧
    ∃ t, exec (.ldF x) s = .next t ∧ t.i.toNat = s.regNat x * 5 ∧ t.pc = s.pc + 2 ∧
      UnchangedExcept [.index, .pc] s t

/-- `FX1E` adds V[X] to I modulo 65536; VF says whether the unreduced sum lies above 0xFFF (43_index_memory.md
R142; decisions D6, D8 of the spec, log 13; with X = 15 the flag remains, D7, log 8). -/
def Obligations.AddToIndex : Prop :=
  ∀ (x : Reg) (s : State), decode (wordCXNN 0xF x 0x1E) = .ok (.addI x) ∧
    ∃ t, exec (.addI x) s = .next t ∧ t.i.toNat = (s.i.toNat + s.regNat x) % 65536 ∧
      t.regNat 15 = (if s.i.toNat + s.regNat x > 0xFFF then 1 else 0) ∧ t.pc = s.pc + 2 ∧
      RegsUnchangedExcept [15] s t ∧ UnchangedExcept [.regs, .index, .pc] s t

/-- `FX33` in range stores the decimal digits of V[X], hundreds first, at I, I + 1, I + 2: each a digit, and
together the value (43_index_memory.md R144; the range is decision D4 of the spec, log 7). -/
def Obligations.StoreDecimalDigits : Prop :=
  ∀ (x : Reg) (s : State), decode (wordCXNN 0xF x 0x33) = .ok (.ldB x) ∧
    (s.i.toNat + 2 ≤ 0xFFF → ∃ t, exec (.ldB x) s = .next t ∧
      (t.byteAt s.i.toNat).toNat = s.regNat x / 100 ∧
      (t.byteAt (s.i.toNat + 1)).toNat = s.regNat x / 10 % 10 ∧
      (t.byteAt (s.i.toNat + 2)).toNat = s.regNat x % 10 ∧
      100 * (t.byteAt s.i.toNat).toNat + 10 * (t.byteAt (s.i.toNat + 1)).toNat +
        (t.byteAt (s.i.toNat + 2)).toNat = s.regNat x ∧
      BytesUnchangedOutside s.i.toNat 3 s t ∧ t.pc = s.pc + 2 ∧ UnchangedExcept [.memory, .pc] s t)

/-- `FX55` in range stores V0 to V[X] from I upwards; I moves past them in `cosmac` and stays in `schip`
(43_index_memory.md R145; decisions D4, D6 of the spec, logs 7, 13). -/
def Obligations.StoreRegisters : Prop :=
  ∀ (x : Reg) (s : State), decode (wordCXNN 0xF x 0x55) = .ok (.stRegs x) ∧
    (s.i.toNat + x.val ≤ 0xFFF → ∃ t, exec (.stRegs x) s = .next t ∧
      (∀ k : Reg, k ≤ x → t.byteAt (s.i.toNat + k.val) = s.reg k) ∧
      BytesUnchangedOutside s.i.toNat (x.val + 1) s t ∧
      t.i.toNat = (if s.dialect = .cosmac then (s.i.toNat + x.val + 1) % 65536 else s.i.toNat) ∧
      t.pc = s.pc + 2 ∧ UnchangedExcept [.memory, .index, .pc] s t)

/-- `FX65` in range loads V0 to V[X] from I upwards; I moves past them in `cosmac` and stays in `schip`
(43_index_memory.md R146; decisions D4, D6 of the spec, logs 7, 13). -/
def Obligations.LoadRegisters : Prop :=
  ∀ (x : Reg) (s : State), decode (wordCXNN 0xF x 0x65) = .ok (.ldRegs x) ∧
    (s.i.toNat + x.val ≤ 0xFFF → ∃ t, exec (.ldRegs x) s = .next t ∧
      (∀ k : Reg, k ≤ x → t.reg k = s.byteAt (s.i.toNat + k.val)) ∧
      (∀ k : Reg, x < k → t.reg k = s.reg k) ∧
      t.i.toNat = (if s.dialect = .cosmac then (s.i.toNat + x.val + 1) % 65536 else s.i.toNat) ∧
      t.pc = s.pc + 2 ∧ UnchangedExcept [.regs, .index, .pc] s t)

/-- `FX55` and then `FX65` with the same X and the same I gives V0 to V[X] back, from any state that has the
memory the store left (43_index_memory.md R146, corner cases; the range is decision D4 of the spec, log 7). -/
def Obligations.StoreThenLoadRestoresRegisters : Prop :=
  ∀ (x : Reg) (s t u : State), s.i.toNat + x.val ≤ 0xFFF → exec (.stRegs x) s = .next t →
    Part.memory.Same t u → u.i = s.i →
    ∃ v, exec (.ldRegs x) u = .next v ∧ ∀ k : Reg, k ≤ x → v.reg k = s.reg k

/-- R61: the fetch reads only the two bytes at pc; an instruction reads only its window from I and writes only
its window from I, which are empty but for `DXYN`, `FX65` (reads) and `FX33`, `FX55` (writes). -/
def Obligations.MemoryReachedOnlyThroughWindows : Prop :=
  (∀ (s : State) (m : Memory), Memory.read s.font m s.pc.toNat = s.byteAt s.pc.toNat →
    Memory.read s.font m (s.pc.toNat + 1) = s.byteAt (s.pc.toNat + 1) →
    State.fetchInstr { s with mem := m } = s.fetchInstr) ∧
  (∀ (i : Instr) (s t : State) (m : Memory), exec i s = .next t →
    (∀ a, (readWindow i s).1 ≤ a → a < (readWindow i s).1 + (readWindow i s).2 →
      Memory.read s.font m a = s.byteAt a) →
    ∃ t', exec i { s with mem := m } = .next t' ∧ UnchangedExcept [.memory] t t') ∧
  (∀ (i : Instr) (s t : State), exec i s = .next t →
    BytesUnchangedOutside (writeWindow i s).1 (writeWindow i s).2 s t)

/-- Two memories in canonical form over the same font that read alike everywhere are the same data (the
model's own representation, log 19). -/
def Obligations.CanonicalMemoriesReadAlikeAreEqual : Prop :=
  ∀ (font : Font) (m m' : Memory), Memory.wf font m → Memory.wf font m' →
    (∀ a, Memory.read font m a = Memory.read font m' a) → m = m'

/-! ### Display -/

/-- R150: `00E0` blanks every pixel and sets `REDRAW`, whatever the display was. -/
def Obligations.ClearScreen : Prop :=
  ∀ s : State, decode 0x00E0#16 = .ok .cls ∧
    ∃ t, exec .cls s = .next t ∧ (∀ p, t.pixel p = false) ∧ t.redraw = true ∧ t.pc = s.pc + 2 ∧
      UnchangedExcept [.pixels, .redraw, .pc] s t

/-- `DXYN` with its bytes in range toggles exactly the pixels the sprite draws on, in either wrapping mode; VF
is 1 exactly if one of them was lit; `REDRAW` is set (44_display.md R151; operand order, the range of all N
bytes and N = 0 are decision D9 of the spec, log 14). -/
def Obligations.DrawSpritePixelByPixel : Prop :=
  ∀ (x y : Reg) (n : Nat) (s : State), n < 16 →
    decode (wordCXYN 0xD x y (BitVec.ofNat 4 n)) = .ok (.drw x y n) ∧
    (n = 0 ∨ s.i.toNat + n - 1 ≤ 0xFFF → ∃ t, exec (.drw x y n) s = .next t ∧
      (∀ p, s.DrawsOn x y n p → t.pixel p = !s.pixel p) ∧
      (∀ p, ¬ s.DrawsOn x y n p → t.pixel p = s.pixel p) ∧
      ((∃ p, s.DrawsOn x y n p ∧ s.pixel p = true) → t.regNat 15 = 1) ∧
      ((∀ p, s.DrawsOn x y n p → s.pixel p = false) → t.regNat 15 = 0) ∧
      t.redraw = true ∧ t.pc = s.pc + 2 ∧
      RegsUnchangedExcept [15] s t ∧ UnchangedExcept [.regs, .pixels, .redraw, .pc] s t)

/-- Drawing the same sprite twice at the same origin restores every pixel (the document's property S4); the
second draw reports VF = 1 exactly if the first lit a pixel (44_display.md R151 corner case (f); the range is
decision D9 of the spec, log 14). The second draw may name other registers, as it must where the first draw's
flag has overwritten an origin register. -/
def Obligations.DrawTwiceRestoresDisplay : Prop :=
  ∀ (x y x' y' : Reg) (n : Nat) (s t : State), n < 16 → (n = 0 ∨ s.i.toNat + n - 1 ≤ 0xFFF) →
    exec (.drw x y n) s = .next t →
    t.regNat x' % 64 = s.regNat x % 64 → t.regNat y' % 32 = s.regNat y % 32 →
    ∃ u, exec (.drw x' y' n) t = .next u ∧ (∀ p, u.pixel p = s.pixel p) ∧
      (u.regNat 15 = 1 ↔ ∃ p, s.pixel p = false ∧ t.pixel p = true)

/-- After a step `REDRAW` is true exactly if the step completed a clear or a draw; a step that leaves it false has
changed no pixel; its value is read by nothing (10_state.md R30; that a raising draw leaves it false is
decisions D9, D13 of the spec, logs 5, 14). The host's moves leave it: that Reset and LoadROM keep it is
decision D15, log 16 (70_reset_and_hazards.md R191 calls that note this spec's own). -/
def Obligations.RedrawMarksDisplayInstructions : Prop :=
  (∀ s t : State, step s = .next t →
    (t.redraw = true ↔
      t.fault = none ∧ ∃ i, s.fetchInstr = .ok i ∧ i.touchesDisplay = true) ∧
    (t.redraw = false → ∀ p, t.pixel p = s.pixel p)) ∧
  (∀ (s : State) (b : Bool), step (s.setRedraw b) = step s) ∧
  (∀ s : State, (hostReset s).redraw = s.redraw) ∧
  (∀ (rom : List Byte) (s t : State), loadRom rom s = .next t → t.redraw = s.redraw) ∧
  (∀ (keys : Vector Bool 16) (s : State), (setKeys keys s).redraw = s.redraw) ∧
  (∀ (w : WrapMode) (d : Dialect) (s t : State), configure w d s = .next t → t.redraw = s.redraw)

/-! ### Keys and timers -/

/-- `EX9E` and `EXA1` with V[X] a key number skip on the state of that key, complementary to each other
(45_keys_timers.md R160, R161; the range is decision D10 of the spec, log 15). -/
def Obligations.SkipsOnKey : Prop :=
  ∀ (x k : Reg) (s : State),
    decode (wordCXNN 0xE x 0x9E) = .ok (.skp x) ∧ decode (wordCXNN 0xE x 0xA1) = .ok (.sknp x) ∧
    (s.regNat x = k.val →
      (∃ t, exec (.skp x) s = .next t ∧
        t.pc = s.pc + (if s.keyDown k = true then 4 else 2) ∧ UnchangedExcept [.pc] s t) ∧
      (∃ t, exec (.sknp x) s = .next t ∧
        t.pc = s.pc + (if s.keyDown k = true then 2 else 4) ∧ UnchangedExcept [.pc] s t))

/-- `FX0A` with no key down changes nothing, so that it is fetched again; with a key down it completes, and
V[X] takes the number of a key that is down, whichever is drawn (45_keys_timers.md R162; the write is
decision D11 of the spec from general knowledge, log 9; the draw is log 3). -/
def Obligations.WaitForKey : Prop :=
  ∀ (x : Reg) (s : State), decode (wordCXNN 0xF x 0x0A) = .ok (.ldVxK x) ∧
    ((∀ k, s.keyDown k = false) →
      ∃ t, exec (.ldVxK x) s = .next t ∧ UnchangedExcept [] s t) ∧
    ((∃ k, s.keyDown k = true) →
      ∃ t k, exec (.ldVxK x) s = .next t ∧ s.keyDown k = true ∧ t.regNat x = k.val ∧
        t.draws = s.draws + 1 ∧ t.pc = s.pc + 2 ∧ RegsUnchangedExcept [x] s t ∧
        UnchangedExcept [.regs, .pc, .draws] s t)

/-- R163: `FX07` puts `DT` into V[X], as it was before the tick of its own step, after which `DT` is one less
unless it was 0. -/
def Obligations.LoadDelay : Prop :=
  ∀ (x : Reg) (s : State), decode (wordCXNN 0xF x 0x07) = .ok (.ldVxDt x) ∧
    (∃ t, exec (.ldVxDt x) s = .next t ∧ t.reg x = s.dt ∧ t.pc = s.pc + 2 ∧
      RegsUnchangedExcept [x] s t ∧ UnchangedExcept [.regs, .pc] s t) ∧
    (s.Enabled → s.fetchInstr = .ok (.ldVxDt x) →
      ∃ t, step s = .next t ∧ t.reg x = s.dt ∧ t.dt.toNat = t.regNat x - 1)

/-- `FX15` puts V[X] into `DT` and `FX18` into `ST`; after the whole step, whose tick follows the write, the
timer is one less unless it is 0, and the sound output is on exactly if V[X] was above 1 (45_keys_timers.md
R164, R165 for the step of the write, 10_state.md R34 for the sound output). -/
def Obligations.SetTimers : Prop :=
  ∀ (x : Reg) (s : State),
    (decode (wordCXNN 0xF x 0x15) = .ok (.ldDtVx x) ∧
      (∃ t, exec (.ldDtVx x) s = .next t ∧ t.dt = s.reg x ∧ t.pc = s.pc + 2 ∧
        UnchangedExcept [.delay, .pc] s t) ∧
      (s.Enabled → s.fetchInstr = .ok (.ldDtVx x) →
        ∃ t, step s = .next t ∧ t.dt.toNat = s.regNat x - 1)) ∧
    (decode (wordCXNN 0xF x 0x18) = .ok (.ldStVx x) ∧
      (∃ t, exec (.ldStVx x) s = .next t ∧ t.st = s.reg x ∧ t.pc = s.pc + 2 ∧
        UnchangedExcept [.sound, .pc] s t) ∧
      (s.Enabled → s.fetchInstr = .ok (.ldStVx x) →
        ∃ t, step s = .next t ∧ t.st.toNat = s.regNat x - 1 ∧
          (t.sound = true ↔ 1 < s.regNat x)))

/-! ### Settings -/

/-- `WRAP_MODE` is read only by `DXYN` and `DIALECT` only by the two shifts and the two register transfers:
any other instruction does the same under another setting, and no fetch depends on either (10_state.md R31;
that both are parameters is decision D16 of the spec, log 1). -/
def Obligations.SettingsReadOnlyWhereSaid : Prop :=
  (∀ (i : Instr) (s t : State) (m : WrapMode), (∀ x y n, i ≠ .drw x y n) → exec i s = .next t →
    exec i { s with wrapMode := m } = .next { t with wrapMode := m }) ∧
  (∀ (i : Instr) (s t : State) (d : Dialect),
    (∀ x y, i ≠ .shr x y ∧ i ≠ .shl x y ∧ i ≠ .stRegs x ∧ i ≠ .ldRegs x) → exec i s = .next t →
    exec i { s with dialect := d } = .next { t with dialect := d }) ∧
  (∀ (s : State) (m : WrapMode) (d : Dialect),
    State.fetchInstr { s with wrapMode := m, dialect := d } = s.fetchInstr)

/-! ### Reset, load and the host's moves -/

/-- The host's Reset leaves every element at its reset value, `REDRAW` and the settings unchanged, and no step
enabled (70_reset_and_hazards.md R191, 10_state.md R37; `POWERED`, `FAULT` and what stays are decisions D13,
D15 of the spec, log 16; that the draw counter stays and that a new run begins are the model's, logs 3, 17). -/
def Obligations.ResetLeaves : Prop :=
  ∀ s : State, (∀ r, (hostReset s).reg r = 0) ∧ (hostReset s).i = 0 ∧ (hostReset s).pc = 0x0200 ∧
    (hostReset s).sp = 0 ∧ (∀ k : Fin 16, (hostReset s).stack[k.val] = 0) ∧
    (hostReset s).dt = 0 ∧ (hostReset s).st = 0 ∧
    (∀ k : Fin 80, (hostReset s).byteAt k.val = s.font[k.val]) ∧
    (∀ a, 80 ≤ a → (hostReset s).byteAt a = 0) ∧ (∀ p, (hostReset s).pixel p = false) ∧
    (∀ k, (hostReset s).keyDown k = false) ∧ (hostReset s).powered = false ∧
    (hostReset s).fault = none ∧ (hostReset s).redraw = s.redraw ∧
    (hostReset s).wrapMode = s.wrapMode ∧ (hostReset s).dialect = s.dialect ∧
    (hostReset s).font = s.font ∧ (hostReset s).draws = s.draws ∧
    (hostReset s).stepped = false ∧ ∀ t, step (hostReset s) ≠ .next t

/-- LoadROM puts the bytes verbatim at 0x200, leaves everything else as Reset does, keys up and settings and font
kept, and powers the machine; a ROM above 3584 bytes is refused (70_reset_and_hazards.md R192; what Reset
leaves is decision D15 of the spec, log 16; the refusal is decision D24, log 22). -/
def Obligations.LoadRomPlacesProgram : Prop :=
  ∀ (rom : List Byte) (s : State),
    (rom.length ≤ 3584 → ∃ t, loadRom rom s = .next t ∧ t.powered = true ∧ t.Enabled ∧
      (∀ j, j < rom.length → t.byteAt (0x200 + j) = rom.getD j 0) ∧
      (∀ a, 0x200 + rom.length ≤ a → t.byteAt a = 0) ∧
      (∀ a, a < 0x200 → t.byteAt a = (hostReset s).byteAt a) ∧
      t.pc = 0x0200 ∧ t.wrapMode = s.wrapMode ∧ t.dialect = s.dialect ∧ t.font = s.font ∧
      (∀ k, t.keyDown k = false) ∧ UnchangedExcept [.memory, .settings] (hostReset s) t) ∧
    (3584 < rom.length → loadRom rom s = .refused .romTooLong)

/-- R193: SetKeys replaces the whole snapshot and nothing else, whatever it was; Reset and LoadROM clear it. -/
def Obligations.SetKeysReplacesSnapshot : Prop :=
  ∀ (keys : Vector Bool 16) (s : State),
    (∀ k : Reg, (setKeys keys s).keyDown k = keys[k.val]) ∧
    UnchangedExcept [.settings] s (setKeys keys s) ∧
    (setKeys keys s).powered = s.powered ∧ (setKeys keys s).wrapMode = s.wrapMode ∧
    (setKeys keys s).dialect = s.dialect ∧ (setKeys keys s).font = s.font ∧
    (∀ k, (hostReset (setKeys keys s)).keyDown k = false) ∧
    (∀ (rom : List Byte) (t : State), loadRom rom (setKeys keys s) = .next t →
      ∀ k, t.keyDown k = false)

/-- Before the first step of a run Configure takes both settings, changing nothing else, also between LoadROM and
that step; after it, whatever the step did, Configure is refused (70_reset_and_hazards.md R194, R195). That a
Reset starts a new run in which Configure is allowed again is the model's choice, as is the field that records
a step (log 17). -/
def Obligations.ConfigureOnlyBeforeFirstStep : Prop :=
  ∀ (w : WrapMode) (d : Dialect) (s : State),
    (s.stepped = false → ∃ t, configure w d s = .next t ∧ t.wrapMode = w ∧ t.dialect = d ∧
      UnchangedExcept [.settings] s t ∧ t.powered = s.powered ∧ t.font = s.font ∧
      ∀ k, t.keyDown k = s.keyDown k) ∧
    (s.stepped = true → configure w d s = .refused .configureMidRun) ∧
    (∀ t, step s = .next t → configure w d t = .refused .configureMidRun) ∧
    (∃ t, configure w d (hostReset s) = .next t) ∧
    (∀ (rom : List Byte) (t : State), loadRom rom s = .next t → ∃ u, configure w d t = .next u)

/-! ### The invariant -/

/-- The machine after reset, and any constructed machine, has the invariant `State.Inv` (log 19, log 17), and is as
the host's Reset leaves it (70_reset_and_hazards.md R190; decision D15 of the spec, log 16). -/
def Obligations.ConstructedMachineHasInv : Prop :=
  State.reset.Inv ∧ hostReset State.reset = State.reset ∧
  ∀ (w : WrapMode) (d : Dialect) (font : Font), (State.construct w d font).Inv ∧
    hostReset (State.construct w d font) = State.construct w d font

/-- From every state with the invariant, reachable or not, a step that answers a next state answers one with it:
memory canonical and inside the address space (20_memory.md R50, R55, log 19), and a latched condition the one
that the instruction at pc raises there: the illegal word at pc, the first address above 0xFFF that pc or the
instruction reaches, a full or an empty stack at a call or a return, the byte of the register a key test names
(60_exceptions.md R171 to R177; decision D13 of the spec, log 5), only after a step on a powered machine
(log 17). -/
def Obligations.StepKeepsInv : Prop :=
  ∀ s t : State, s.Inv → step s = .next t → t.Inv

/-- Every move the host has keeps the invariant too (70_reset_and_hazards.md R195; that SetKeys leaves a latched
condition true of the state is decision D13 of the spec, log 5; Configure is log 17). -/
def Obligations.HostMovesKeepInv : Prop :=
  ∀ (m : HostMove) (s t : State), s.Inv → hostMove m s = .next t → t.Inv
end

