-- ==== Sys2Proof/Laws/Decode.lean ====
section
/-! SUPPORT. What the fields of a word are as numbers, what the encoder's words are as numbers, and how
bytes join. -/

namespace Sys2Proof

theorem fieldC_eq (w : Word) : fieldC w = w.toNat / 0x1000 := by
  have := w.isLt
  simp only [fieldC, BitVec.extractLsb'_toNat, Nat.shiftRight_eq_div_pow]
  omega

theorem fieldX_val (w : Word) : (fieldX w).val = w.toNat / 0x100 % 16 := by
  simp only [fieldX, BitVec.extractLsb'_toNat, Nat.shiftRight_eq_div_pow]

theorem fieldY_val (w : Word) : (fieldY w).val = w.toNat / 0x10 % 16 := by
  simp only [fieldY, BitVec.extractLsb'_toNat, Nat.shiftRight_eq_div_pow]

theorem fieldN_eq (w : Word) : fieldN w = w.toNat % 16 := by
  simp only [fieldN, BitVec.extractLsb'_toNat, Nat.shiftRight_eq_div_pow]
  omega

theorem fieldNN_toNat (w : Word) : (fieldNN w).toNat = w.toNat % 256 := by
  simp only [fieldNN, BitVec.extractLsb'_toNat, Nat.shiftRight_eq_div_pow]
  omega

theorem fieldNNN_toNat (w : Word) : (fieldNNN w).toNat = w.toNat % 4096 := by
  simp only [fieldNNN, BitVec.extractLsb'_toNat, Nat.shiftRight_eq_div_pow]
  omega

theorem nibbles_toNat {c x y n : Nat} (hc : c < 16) (hx : x < 16) (hy : y < 16) (hn : n < 16) :
    (nibbles c x y n).toNat = c * 0x1000 + x * 0x100 + y * 0x10 + n := by
  simp only [nibbles, BitVec.toNat_ofNat]
  omega

theorem nibbleByte_toNat {c x : Nat} (nn : Byte) (hc : c < 16) (hx : x < 16) :
    (nibbleByte c x nn).toNat = c * 0x1000 + x * 0x100 + nn.toNat := by
  have := nn.isLt
  simp only [nibbleByte, BitVec.toNat_ofNat]
  omega

theorem nibbleAddr_toNat {c : Nat} (nnn : Addr12) (hc : c < 16) :
    (nibbleAddr c nnn).toNat = c * 0x1000 + nnn.toNat := by
  have := nnn.isLt
  simp only [nibbleAddr, BitVec.toNat_ofNat]
  omega

@[simp] theorem joinBytes_toNat (hi lo : Byte) : (joinBytes hi lo).toNat = hi.toNat * 256 + lo.toNat := by
  have := hi.isLt
  have := lo.isLt
  simp only [joinBytes, BitVec.toNat_ofNat]
  omega

/-- Joining the two bytes of a word gives the word back (20_memory.md R52). -/
@[simp] theorem joinBytes_split (w : Word) :
    joinBytes (w.extractLsb' 8 8) (w.extractLsb' 0 8) = w := by
  have := w.isLt
  apply BitVec.eq_of_toNat_eq
  simp only [joinBytes_toNat, BitVec.extractLsb'_toNat, Nat.shiftRight_eq_div_pow]
  omega

/-! ### The masks of the opcode map (30_encoding.md R74) as numbers -/

theorem and_F000_toNat (w : Word) : (w &&& 0xF000#16).toNat = w.toNat / 0x1000 * 0x1000 := by
  have h : w &&& 0xF000#16 = (w >>> 12) <<< 12 := by
    apply BitVec.eq_of_getLsbD_eq
    intro k hk
    interval_cases k <;> simp
  have := w.isLt
  rw [h, BitVec.toNat_shiftLeft, BitVec.toNat_ushiftRight, Nat.shiftRight_eq_div_pow,
    Nat.shiftLeft_eq]
  omega

theorem and_low_toNat (w : Word) (n : Nat) (hn : n < 16) :
    (w &&& BitVec.ofNat 16 (2 ^ n - 1)).toNat = w.toNat % 2 ^ n := by
  have h2 : 2 ^ n < 2 ^ 16 := Nat.pow_lt_pow_right (by omega) hn
  rw [BitVec.toNat_and, BitVec.toNat_ofNat, Nat.mod_eq_of_lt (by omega),
    Nat.and_two_pow_sub_one_eq_mod]

theorem and_or_toNat (w a b : Word) (hab : a &&& b = 0) :
    (w &&& (a ||| b)).toNat = (w &&& a).toNat + (w &&& b).toNat := by
  have hz : (w &&& a) &&& (w &&& b) = 0#16 := by
    rw [BitVec.and_assoc, ← BitVec.and_assoc a w b, BitVec.and_comm a w, BitVec.and_assoc w a b, hab]
    simp
  have hd : w &&& (a ||| b) = (w &&& a) + (w &&& b) := by
    rw [BitVec.add_eq_or_of_and_eq_zero _ _ hz]
    apply BitVec.eq_of_getLsbD_eq
    intro k _
    simp [Bool.and_or_distrib_left]
  have hn := congrArg BitVec.toNat hz
  have hle : (w &&& a).toNat + (w &&& b).toNat < 2 ^ 16 := by
    have h1 := BitVec.toNat_add_of_and_eq_zero hz
    rw [← h1]
    exact BitVec.isLt _
  rw [hd, BitVec.toNat_add, Nat.mod_eq_of_lt hle]

theorem and_F00F_toNat (w : Word) :
    (w &&& 0xF00F#16).toNat = w.toNat / 0x1000 * 0x1000 + w.toNat % 16 := by
  have := and_or_toNat w 0xF000#16 0x000F#16 (by decide)
  rw [and_F000_toNat] at this
  simpa using this.trans (congrArg _ (and_low_toNat w 4 (by omega)))

theorem and_F0FF_toNat (w : Word) :
    (w &&& 0xF0FF#16).toNat = w.toNat / 0x1000 * 0x1000 + w.toNat % 256 := by
  have := and_or_toNat w 0xF000#16 0x00FF#16 (by decide)
  rw [and_F000_toNat] at this
  simpa using this.trans (congrArg _ (and_low_toNat w 8 (by omega)))

/-- A rejected word is rejected by its own value. -/
theorem decode_error {w : Word} {e : DecodeReject} (h : decode w = .error e) :
    e = .illegalOpcode w := by
  unfold decode decodeCat0 decodeCat8 decodeCatE decodeCatF at h
  repeat' split at h
  all_goals first
    | exact (Except.error.inj h).symm
    | cases h

/-- Every decoded instruction is well formed. -/
theorem decode_wellFormed {w : Word} {i : Instr} (h : decode w = .ok i) : i.WellFormed = true := by
  have hn : fieldN w < 16 := by rw [fieldN_eq]; omega
  unfold decode decodeCat0 decodeCat8 decodeCatE decodeCatF at h
  repeat' split at h
  all_goals cases h
  all_goals first
    | rfl
    | simpa [Instr.WellFormed] using hn

end Sys2Proof
end

