-- ==== Sys2Proof/Laws/Display.lean ====
section
/-! SUPPORT. The display read back, and what drawing a list of pixels does. -/

namespace Sys2Proof.Machine

@[simp] theorem Display.get_set (d : Display) (p q : Pixel) (b : Bool) :
    Display.get (Display.set d p b) q = if q = p then b else Display.get d q := by
  obtain ⟨px, py⟩ := p
  obtain ⟨qx, qy⟩ := q
  simp only [Display.get, Display.set, Vector.getElem_set, Prod.mk.injEq, Fin.ext_iff]
  by_cases hy : py.val = qy.val
  · by_cases hx : px.val = qx.val
    · simp [hy, hx]
    · simp [hy, hx, Ne.symm hx]
  · simp [hy, Ne.symm hy]

@[simp] theorem Display.get_blank (p : Pixel) : Display.get Display.blank p = false := by
  simp [Display.get, Display.blank]

theorem Display.ext_get {d e : Display} (h : ∀ p, Display.get d p = Display.get e p) : d = e := by
  apply Vector.ext
  intro y hy
  apply Vector.ext
  intro x hx
  exact h (⟨x, hx⟩, ⟨y, hy⟩)

/-- Drawing pixels none of which is named twice toggles exactly those, and the flag is promoted exactly
when one of them was lit (44_display.md R151). -/
theorem foldl_drawPixel (l : List Pixel) (hl : l.Nodup) (d : Display) (f : Bool) :
    (∀ p, Display.get (l.foldl drawPixel (d, f)).1 p = (Display.get d p ^^ decide (p ∈ l))) ∧
    ((l.foldl drawPixel (d, f)).2 = true ↔ f = true ∨ ∃ p ∈ l, Display.get d p = true) := by
  induction l generalizing d f with
  | nil => simp
  | cons q l ih =>
    obtain ⟨hq, hl⟩ := List.nodup_cons.1 hl
    obtain ⟨ih1, ih2⟩ := ih hl (Display.set d q (!Display.get d q)) (f || Display.get d q)
    refine ⟨fun p => ?_, ?_⟩
    · rw [List.foldl_cons]
      refine (ih1 p).trans ?_
      rw [Display.get_set]
      by_cases hp : p = q
      · subst hp; simp [hq]
      · simp [hp]
    · rw [List.foldl_cons]
      refine ih2.trans ?_
      simp only [Bool.or_eq_true, List.mem_cons, exists_eq_or_imp]
      constructor
      · rintro ((h | h) | ⟨p, hp, h⟩)
        · exact .inl h
        · exact .inr (.inl h)
        · have hne : p ≠ q := fun e => hq (e ▸ hp)
          rw [Display.get_set, if_neg hne] at h
          exact .inr (.inr ⟨p, hp, h⟩)
      · rintro (h | h | ⟨p, hp, h⟩)
        · exact .inl (.inl h)
        · exact .inl (.inr h)
        · have hne : p ≠ q := fun e => hq (e ▸ hp)
          exact .inr ⟨p, hp, by rw [Display.get_set, if_neg hne]; exact h⟩

/-! ### Where a sprite's pixels land -/

theorem mem_rowPixels {mode : WrapMode} {x0 cy : Nat} {row : Byte} {p : Pixel} :
    p ∈ rowPixels mode x0 cy row ↔
      ∃ b, b < 8 ∧ row.getLsbD (7 - b) = true ∧ placePixel mode (x0 + b) cy = some p := by
  simp only [rowPixels, List.mem_filterMap, List.mem_range, Option.ite_none_right_eq_some]

/-- A sprite's pixels: bit `b` of row `r`, placed. -/
theorem mem_spritePixels {mode : WrapMode} {x0 cy : Nat} {rows : List Byte} {p : Pixel} :
    p ∈ spritePixels mode x0 cy rows ↔
      ∃ r b, r < rows.length ∧ b < 8 ∧ (rows.getD r 0).getLsbD (7 - b) = true ∧
        placePixel mode (x0 + b) (cy + r) = some p := by
  induction rows generalizing cy with
  | nil => simp [spritePixels]
  | cons row rows ih =>
    rw [spritePixels, List.mem_append, mem_rowPixels, ih]
    constructor
    · rintro (⟨b, hb, hs, hp⟩ | ⟨r, b, hr, hb, hs, hp⟩)
      · exact ⟨0, b, by simp, hb, by simpa using hs, by simpa using hp⟩
      · refine ⟨r + 1, b, by simpa using hr, hb, by simpa using hs, ?_⟩
        rw [← hp]; congr 1; omega
    · rintro ⟨r, b, hr, hb, hs, hp⟩
      cases r with
      | zero => exact .inl ⟨b, hb, by simpa using hs, by simpa using hp⟩
      | succ r =>
        refine .inr ⟨r, b, by simpa using hr, hb, by simpa using hs, ?_⟩
        rw [← hp]; congr 1; omega

/-- Within 8 columns and at most 32 rows, two positions placed on the same pixel are the same position
(R151 corner case (b)). -/
theorem placePixel_inj {mode : WrapMode} {x0 y0 b b' r r' : Nat} {p : Pixel} (hb : b < 8) (hb' : b' < 8)
    (hr : r < 32) (hr' : r' < 32) (h : placePixel mode (x0 + b) (y0 + r) = some p)
    (h' : placePixel mode (x0 + b') (y0 + r') = some p) : b = b' ∧ r = r' := by
  cases mode with
  | wrap =>
    simp only [placePixel, Option.some.injEq] at h h'
    rw [← h'] at h
    simp only [Prod.mk.injEq, Fin.ext_iff, Fin.ofNat] at h
    omega
  | clip =>
    simp only [placePixel] at h h'
    split at h
    · split at h'
      · simp only [Option.some.injEq] at h h'
        rw [← h'] at h
        simp only [Prod.mk.injEq, Fin.ext_iff] at h
        omega
      · cases h'
    · cases h

theorem nodup_rowPixels (mode : WrapMode) (x0 cy : Nat) (row : Byte) :
    (rowPixels mode x0 cy row).Nodup := by
  refine List.pairwise_filterMap.2 (List.nodup_range.imp_of_mem ?_)
  intro b b' hb hb' hne p hp p' hp' e
  subst e
  simp only [List.mem_range, Option.ite_none_right_eq_some] at *
  exact hne (placePixel_inj (y0 := cy) (r := 0) (r' := 0) hb hb' (by omega) (by omega) hp.2 hp'.2).1

/-- No pixel is drawn twice by a sprite of at most 32 rows (R151 corner case (b)). -/
theorem nodup_spritePixels (mode : WrapMode) (x0 cy : Nat) (rows : List Byte) (h : rows.length ≤ 32) :
    (spritePixels mode x0 cy rows).Nodup := by
  induction rows generalizing cy with
  | nil => simp [spritePixels]
  | cons row rows ih =>
    simp only [List.length_cons] at h
    rw [spritePixels, List.nodup_append]
    refine ⟨nodup_rowPixels mode x0 cy row, ih (cy + 1) (by omega), ?_⟩
    intro p hp q hq e
    subst e
    obtain ⟨b, hb, -, hp⟩ := mem_rowPixels.1 hp
    obtain ⟨r, b', hr, hb', -, hq⟩ := mem_spritePixels.1 hq
    have hq : placePixel mode (x0 + b') (cy + (r + 1)) = some p := by rw [← hq]; congr 1; omega
    have := (placePixel_inj (y0 := cy) (r := 0) hb hb' (by omega) (by omega) hp hq).2
    omega

/-- The sprite draw, pixel by pixel (R151): exactly the sprite's pixels are toggled, and the flag says
whether one of them was lit. -/
theorem drawSprite_spec (mode : WrapMode) (x0 y0 : Nat) (rows : List Byte) (d : Display)
    (h : rows.length ≤ 32) :
    (∀ p, Display.get (drawSprite mode x0 y0 rows d).1 p =
        (Display.get d p ^^ decide (p ∈ spritePixels mode x0 y0 rows))) ∧
    ((drawSprite mode x0 y0 rows d).2 = true ↔
        ∃ p ∈ spritePixels mode x0 y0 rows, Display.get d p = true) := by
  have := foldl_drawPixel _ (nodup_spritePixels mode x0 y0 rows h) d false
  exact ⟨this.1, by simpa [drawSprite] using this.2⟩

end Sys2Proof.Machine
end

