-- ==== Sys2Proof/Laws/Memory.lean ====
section
/-! SUPPORT. The laws of the memory: read after write, and that every operation keeps the canonical
form. -/

namespace Sys2Proof.Machine

variable {font : Font} {m : Memory}

@[simp] theorem Memory.lookup_nil (a : Nat) : Memory.lookup [] a = none := rfl

@[simp] theorem Memory.read_nil (a : Nat) : Memory.read font [] a = Memory.unlisted font a := rfl

theorem Memory.lookup_insert (m : Memory) (a : Nat) (b : Byte) (n : Nat) :
    Memory.lookup (Memory.insert m a b) n = if n = a then some b else Memory.lookup m n := by
  induction m with
  | nil => simp [Memory.insert, Memory.lookup, eq_comm]
  | cons c m ih =>
    unfold Memory.insert
    split
    · simp [Memory.lookup, eq_comm]
    · split
      · rename_i h; subst h
        by_cases hn : n = c.1 <;> simp [Memory.lookup, hn, eq_comm]
      · by_cases hc : c.1 = n
        · have : n ≠ a := by omega
          simp [Memory.lookup, hc, this]
        · simp [Memory.lookup, hc, ih]

theorem Memory.lookup_erase (m : Memory) (a n : Nat) :
    Memory.lookup (Memory.erase m a) n = if n = a then none else Memory.lookup m n := by
  induction m with
  | nil => simp [Memory.erase]
  | cons c m ih =>
    by_cases hc : c.1 = a
    · have he : Memory.erase (c :: m) a = Memory.erase m a := by simp [Memory.erase, hc]
      rw [he, ih]
      by_cases hn : n = a
      · simp [hn]
      · simp [hn, Memory.lookup, hc, Ne.symm hn]
    · have he : Memory.erase (c :: m) a = c :: Memory.erase m a := by simp [Memory.erase, hc]
      rw [he]
      by_cases hn : c.1 = n
      · have : n ≠ a := by omega
        simp [Memory.lookup, hn, this]
      · simp [Memory.lookup, hn, ih]

/-- Read after write: the byte written, and every other byte as before (20_memory.md R55). -/
theorem Memory.read_write (font : Font) (m : Memory) (a : Nat) (b : Byte) (n : Nat) :
    Memory.read font (Memory.write font m a b) n = if n = a then b else Memory.read font m n := by
  unfold Memory.write Memory.read
  split
  · rename_i h
    rw [Memory.lookup_erase]
    by_cases hn : n = a <;> simp [hn, h]
  · rw [Memory.lookup_insert]
    by_cases hn : n = a <;> simp [hn]

theorem Memory.mem_insert {a : Nat} {b : Byte} {c : Host.Cell} (h : c ∈ Memory.insert m a b) :
    c = (a, b) ∨ c ∈ m := by
  induction m with
  | nil => simpa [Memory.insert] using h
  | cons d m ih =>
    unfold Memory.insert at h
    split at h
    · simpa using h
    · split at h
      · rcases List.mem_cons.1 h with h | h <;> simp [h]
      · rcases List.mem_cons.1 h with h | h
        · simp [h]
        · rcases ih h with h | h <;> simp [h]

theorem Memory.rising_insert {a : Nat} {b : Byte} (h : m.Pairwise (fun c d => c.1 < d.1)) :
    (Memory.insert m a b).Pairwise (fun c d => c.1 < d.1) := by
  induction m with
  | nil => simp [Memory.insert]
  | cons c m ih =>
    obtain ⟨h1, h2⟩ := List.pairwise_cons.1 h
    unfold Memory.insert
    split
    · rename_i ha
      refine List.pairwise_cons.2 ⟨fun d hd => ?_, h⟩
      rcases List.mem_cons.1 hd with hd | hd
      · simpa [hd] using ha
      · exact lt_trans ha (h1 d hd)
    · split
      · rename_i ha
        exact List.pairwise_cons.2 ⟨fun d hd => by simpa [ha] using h1 d hd, h2⟩
      · refine List.pairwise_cons.2 ⟨fun d hd => ?_, ih h2⟩
        rcases Memory.mem_insert hd with hd | hd
        · subst hd; simp only; omega
        · exact h1 d hd

/-- The memory Reset leaves lists nothing and has the canonical form. -/
@[simp] theorem Memory.wf_nil : Memory.wf font [] := by simp [Memory.wf]

/-- A write inside the address space keeps the canonical form. -/
theorem Memory.wf_write {a : Nat} {b : Byte} (h : Memory.wf font m) (ha : a < memSize) :
    Memory.wf font (Memory.write font m a b) := by
  unfold Memory.write
  split
  · exact ⟨h.1.filter _, fun c hc => h.2 c (List.mem_of_mem_filter hc)⟩
  · rename_i hb
    refine ⟨Memory.rising_insert h.1, fun c hc => ?_⟩
    rcases Memory.mem_insert hc with hc | hc
    · subst hc; exact ⟨ha, hb⟩
    · exact h.2 c hc

end Sys2Proof.Machine
end

