-- ==== Sys2Proof/Laws/State.lean ====
section
/-! SUPPORT. One lemma per field per update of the state, and one per accessor per update that leaves
it alone, so that no proof unfolds a record update. -/

namespace Sys2Proof.Machine

/-! ### setReg -/

@[simp] theorem State.setReg_v (s : State) (x : Reg) (b : Byte) : (s.setReg x b).v = s.v.set x.val b := rfl
@[simp] theorem State.setReg_i (s : State) (x : Reg) (b : Byte) : (s.setReg x b).i = s.i := rfl
@[simp] theorem State.setReg_pc (s : State) (x : Reg) (b : Byte) : (s.setReg x b).pc = s.pc := rfl
@[simp] theorem State.setReg_stack (s : State) (x : Reg) (b : Byte) : (s.setReg x b).stack = s.stack := rfl
@[simp] theorem State.setReg_sp (s : State) (x : Reg) (b : Byte) : (s.setReg x b).sp = s.sp := rfl
@[simp] theorem State.setReg_dt (s : State) (x : Reg) (b : Byte) : (s.setReg x b).dt = s.dt := rfl
@[simp] theorem State.setReg_st (s : State) (x : Reg) (b : Byte) : (s.setReg x b).st = s.st := rfl
@[simp] theorem State.setReg_mem (s : State) (x : Reg) (b : Byte) : (s.setReg x b).mem = s.mem := rfl
@[simp] theorem State.setReg_pix (s : State) (x : Reg) (b : Byte) : (s.setReg x b).pix = s.pix := rfl
@[simp] theorem State.setReg_redraw (s : State) (x : Reg) (b : Byte) : (s.setReg x b).redraw = s.redraw := rfl
@[simp] theorem State.setReg_powered (s : State) (x : Reg) (b : Byte) : (s.setReg x b).powered = s.powered := rfl
@[simp] theorem State.setReg_fault (s : State) (x : Reg) (b : Byte) : (s.setReg x b).fault = s.fault := rfl
@[simp] theorem State.setReg_key (s : State) (x : Reg) (b : Byte) : (s.setReg x b).key = s.key := rfl
@[simp] theorem State.setReg_wrapMode (s : State) (x : Reg) (b : Byte) : (s.setReg x b).wrapMode = s.wrapMode := rfl
@[simp] theorem State.setReg_dialect (s : State) (x : Reg) (b : Byte) : (s.setReg x b).dialect = s.dialect := rfl
@[simp] theorem State.setReg_font (s : State) (x : Reg) (b : Byte) : (s.setReg x b).font = s.font := rfl
@[simp] theorem State.setReg_draws (s : State) (x : Reg) (b : Byte) : (s.setReg x b).draws = s.draws := rfl
@[simp] theorem State.setReg_stepped (s : State) (x : Reg) (b : Byte) : (s.setReg x b).stepped = s.stepped := rfl
@[simp] theorem State.byteAt_setReg (s : State) (x : Reg) (b : Byte) (n : Nat) : (s.setReg x b).byteAt n = s.byteAt n := rfl
@[simp] theorem State.pixel_setReg (s : State) (x : Reg) (b : Byte) (p : Pixel) : (s.setReg x b).pixel p = s.pixel p := rfl
@[simp] theorem State.keyDown_setReg (s : State) (x : Reg) (b : Byte) (k' : Reg) : (s.setReg x b).keyDown k' = s.keyDown k' := rfl

/-! ### setI -/

@[simp] theorem State.setI_v (s : State) (w : Word) : (s.setI w).v = s.v := rfl
@[simp] theorem State.setI_i (s : State) (w : Word) : (s.setI w).i = w := rfl
@[simp] theorem State.setI_pc (s : State) (w : Word) : (s.setI w).pc = s.pc := rfl
@[simp] theorem State.setI_stack (s : State) (w : Word) : (s.setI w).stack = s.stack := rfl
@[simp] theorem State.setI_sp (s : State) (w : Word) : (s.setI w).sp = s.sp := rfl
@[simp] theorem State.setI_dt (s : State) (w : Word) : (s.setI w).dt = s.dt := rfl
@[simp] theorem State.setI_st (s : State) (w : Word) : (s.setI w).st = s.st := rfl
@[simp] theorem State.setI_mem (s : State) (w : Word) : (s.setI w).mem = s.mem := rfl
@[simp] theorem State.setI_pix (s : State) (w : Word) : (s.setI w).pix = s.pix := rfl
@[simp] theorem State.setI_redraw (s : State) (w : Word) : (s.setI w).redraw = s.redraw := rfl
@[simp] theorem State.setI_powered (s : State) (w : Word) : (s.setI w).powered = s.powered := rfl
@[simp] theorem State.setI_fault (s : State) (w : Word) : (s.setI w).fault = s.fault := rfl
@[simp] theorem State.setI_key (s : State) (w : Word) : (s.setI w).key = s.key := rfl
@[simp] theorem State.setI_wrapMode (s : State) (w : Word) : (s.setI w).wrapMode = s.wrapMode := rfl
@[simp] theorem State.setI_dialect (s : State) (w : Word) : (s.setI w).dialect = s.dialect := rfl
@[simp] theorem State.setI_font (s : State) (w : Word) : (s.setI w).font = s.font := rfl
@[simp] theorem State.setI_draws (s : State) (w : Word) : (s.setI w).draws = s.draws := rfl
@[simp] theorem State.setI_stepped (s : State) (w : Word) : (s.setI w).stepped = s.stepped := rfl
@[simp] theorem State.reg_setI (s : State) (w : Word) (r : Reg) : (s.setI w).reg r = s.reg r := rfl
@[simp] theorem State.byteAt_setI (s : State) (w : Word) (n : Nat) : (s.setI w).byteAt n = s.byteAt n := rfl
@[simp] theorem State.pixel_setI (s : State) (w : Word) (p : Pixel) : (s.setI w).pixel p = s.pixel p := rfl
@[simp] theorem State.keyDown_setI (s : State) (w : Word) (k' : Reg) : (s.setI w).keyDown k' = s.keyDown k' := rfl

/-! ### setPc -/

@[simp] theorem State.setPc_v (s : State) (w : Word) : (s.setPc w).v = s.v := rfl
@[simp] theorem State.setPc_i (s : State) (w : Word) : (s.setPc w).i = s.i := rfl
@[simp] theorem State.setPc_pc (s : State) (w : Word) : (s.setPc w).pc = w := rfl
@[simp] theorem State.setPc_stack (s : State) (w : Word) : (s.setPc w).stack = s.stack := rfl
@[simp] theorem State.setPc_sp (s : State) (w : Word) : (s.setPc w).sp = s.sp := rfl
@[simp] theorem State.setPc_dt (s : State) (w : Word) : (s.setPc w).dt = s.dt := rfl
@[simp] theorem State.setPc_st (s : State) (w : Word) : (s.setPc w).st = s.st := rfl
@[simp] theorem State.setPc_mem (s : State) (w : Word) : (s.setPc w).mem = s.mem := rfl
@[simp] theorem State.setPc_pix (s : State) (w : Word) : (s.setPc w).pix = s.pix := rfl
@[simp] theorem State.setPc_redraw (s : State) (w : Word) : (s.setPc w).redraw = s.redraw := rfl
@[simp] theorem State.setPc_powered (s : State) (w : Word) : (s.setPc w).powered = s.powered := rfl
@[simp] theorem State.setPc_fault (s : State) (w : Word) : (s.setPc w).fault = s.fault := rfl
@[simp] theorem State.setPc_key (s : State) (w : Word) : (s.setPc w).key = s.key := rfl
@[simp] theorem State.setPc_wrapMode (s : State) (w : Word) : (s.setPc w).wrapMode = s.wrapMode := rfl
@[simp] theorem State.setPc_dialect (s : State) (w : Word) : (s.setPc w).dialect = s.dialect := rfl
@[simp] theorem State.setPc_font (s : State) (w : Word) : (s.setPc w).font = s.font := rfl
@[simp] theorem State.setPc_draws (s : State) (w : Word) : (s.setPc w).draws = s.draws := rfl
@[simp] theorem State.setPc_stepped (s : State) (w : Word) : (s.setPc w).stepped = s.stepped := rfl
@[simp] theorem State.reg_setPc (s : State) (w : Word) (r : Reg) : (s.setPc w).reg r = s.reg r := rfl
@[simp] theorem State.byteAt_setPc (s : State) (w : Word) (n : Nat) : (s.setPc w).byteAt n = s.byteAt n := rfl
@[simp] theorem State.pixel_setPc (s : State) (w : Word) (p : Pixel) : (s.setPc w).pixel p = s.pixel p := rfl
@[simp] theorem State.keyDown_setPc (s : State) (w : Word) (k' : Reg) : (s.setPc w).keyDown k' = s.keyDown k' := rfl

/-! ### setDt -/

@[simp] theorem State.setDt_v (s : State) (b : Byte) : (s.setDt b).v = s.v := rfl
@[simp] theorem State.setDt_i (s : State) (b : Byte) : (s.setDt b).i = s.i := rfl
@[simp] theorem State.setDt_pc (s : State) (b : Byte) : (s.setDt b).pc = s.pc := rfl
@[simp] theorem State.setDt_stack (s : State) (b : Byte) : (s.setDt b).stack = s.stack := rfl
@[simp] theorem State.setDt_sp (s : State) (b : Byte) : (s.setDt b).sp = s.sp := rfl
@[simp] theorem State.setDt_dt (s : State) (b : Byte) : (s.setDt b).dt = b := rfl
@[simp] theorem State.setDt_st (s : State) (b : Byte) : (s.setDt b).st = s.st := rfl
@[simp] theorem State.setDt_mem (s : State) (b : Byte) : (s.setDt b).mem = s.mem := rfl
@[simp] theorem State.setDt_pix (s : State) (b : Byte) : (s.setDt b).pix = s.pix := rfl
@[simp] theorem State.setDt_redraw (s : State) (b : Byte) : (s.setDt b).redraw = s.redraw := rfl
@[simp] theorem State.setDt_powered (s : State) (b : Byte) : (s.setDt b).powered = s.powered := rfl
@[simp] theorem State.setDt_fault (s : State) (b : Byte) : (s.setDt b).fault = s.fault := rfl
@[simp] theorem State.setDt_key (s : State) (b : Byte) : (s.setDt b).key = s.key := rfl
@[simp] theorem State.setDt_wrapMode (s : State) (b : Byte) : (s.setDt b).wrapMode = s.wrapMode := rfl
@[simp] theorem State.setDt_dialect (s : State) (b : Byte) : (s.setDt b).dialect = s.dialect := rfl
@[simp] theorem State.setDt_font (s : State) (b : Byte) : (s.setDt b).font = s.font := rfl
@[simp] theorem State.setDt_draws (s : State) (b : Byte) : (s.setDt b).draws = s.draws := rfl
@[simp] theorem State.setDt_stepped (s : State) (b : Byte) : (s.setDt b).stepped = s.stepped := rfl
@[simp] theorem State.reg_setDt (s : State) (b : Byte) (r : Reg) : (s.setDt b).reg r = s.reg r := rfl
@[simp] theorem State.byteAt_setDt (s : State) (b : Byte) (n : Nat) : (s.setDt b).byteAt n = s.byteAt n := rfl
@[simp] theorem State.pixel_setDt (s : State) (b : Byte) (p : Pixel) : (s.setDt b).pixel p = s.pixel p := rfl
@[simp] theorem State.keyDown_setDt (s : State) (b : Byte) (k' : Reg) : (s.setDt b).keyDown k' = s.keyDown k' := rfl

/-! ### setSt -/

@[simp] theorem State.setSt_v (s : State) (b : Byte) : (s.setSt b).v = s.v := rfl
@[simp] theorem State.setSt_i (s : State) (b : Byte) : (s.setSt b).i = s.i := rfl
@[simp] theorem State.setSt_pc (s : State) (b : Byte) : (s.setSt b).pc = s.pc := rfl
@[simp] theorem State.setSt_stack (s : State) (b : Byte) : (s.setSt b).stack = s.stack := rfl
@[simp] theorem State.setSt_sp (s : State) (b : Byte) : (s.setSt b).sp = s.sp := rfl
@[simp] theorem State.setSt_dt (s : State) (b : Byte) : (s.setSt b).dt = s.dt := rfl
@[simp] theorem State.setSt_st (s : State) (b : Byte) : (s.setSt b).st = b := rfl
@[simp] theorem State.setSt_mem (s : State) (b : Byte) : (s.setSt b).mem = s.mem := rfl
@[simp] theorem State.setSt_pix (s : State) (b : Byte) : (s.setSt b).pix = s.pix := rfl
@[simp] theorem State.setSt_redraw (s : State) (b : Byte) : (s.setSt b).redraw = s.redraw := rfl
@[simp] theorem State.setSt_powered (s : State) (b : Byte) : (s.setSt b).powered = s.powered := rfl
@[simp] theorem State.setSt_fault (s : State) (b : Byte) : (s.setSt b).fault = s.fault := rfl
@[simp] theorem State.setSt_key (s : State) (b : Byte) : (s.setSt b).key = s.key := rfl
@[simp] theorem State.setSt_wrapMode (s : State) (b : Byte) : (s.setSt b).wrapMode = s.wrapMode := rfl
@[simp] theorem State.setSt_dialect (s : State) (b : Byte) : (s.setSt b).dialect = s.dialect := rfl
@[simp] theorem State.setSt_font (s : State) (b : Byte) : (s.setSt b).font = s.font := rfl
@[simp] theorem State.setSt_draws (s : State) (b : Byte) : (s.setSt b).draws = s.draws := rfl
@[simp] theorem State.setSt_stepped (s : State) (b : Byte) : (s.setSt b).stepped = s.stepped := rfl
@[simp] theorem State.reg_setSt (s : State) (b : Byte) (r : Reg) : (s.setSt b).reg r = s.reg r := rfl
@[simp] theorem State.byteAt_setSt (s : State) (b : Byte) (n : Nat) : (s.setSt b).byteAt n = s.byteAt n := rfl
@[simp] theorem State.pixel_setSt (s : State) (b : Byte) (p : Pixel) : (s.setSt b).pixel p = s.pixel p := rfl
@[simp] theorem State.keyDown_setSt (s : State) (b : Byte) (k' : Reg) : (s.setSt b).keyDown k' = s.keyDown k' := rfl

/-! ### setRedraw -/

@[simp] theorem State.setRedraw_v (s : State) (b : Bool) : (s.setRedraw b).v = s.v := rfl
@[simp] theorem State.setRedraw_i (s : State) (b : Bool) : (s.setRedraw b).i = s.i := rfl
@[simp] theorem State.setRedraw_pc (s : State) (b : Bool) : (s.setRedraw b).pc = s.pc := rfl
@[simp] theorem State.setRedraw_stack (s : State) (b : Bool) : (s.setRedraw b).stack = s.stack := rfl
@[simp] theorem State.setRedraw_sp (s : State) (b : Bool) : (s.setRedraw b).sp = s.sp := rfl
@[simp] theorem State.setRedraw_dt (s : State) (b : Bool) : (s.setRedraw b).dt = s.dt := rfl
@[simp] theorem State.setRedraw_st (s : State) (b : Bool) : (s.setRedraw b).st = s.st := rfl
@[simp] theorem State.setRedraw_mem (s : State) (b : Bool) : (s.setRedraw b).mem = s.mem := rfl
@[simp] theorem State.setRedraw_pix (s : State) (b : Bool) : (s.setRedraw b).pix = s.pix := rfl
@[simp] theorem State.setRedraw_redraw (s : State) (b : Bool) : (s.setRedraw b).redraw = b := rfl
@[simp] theorem State.setRedraw_powered (s : State) (b : Bool) : (s.setRedraw b).powered = s.powered := rfl
@[simp] theorem State.setRedraw_fault (s : State) (b : Bool) : (s.setRedraw b).fault = s.fault := rfl
@[simp] theorem State.setRedraw_key (s : State) (b : Bool) : (s.setRedraw b).key = s.key := rfl
@[simp] theorem State.setRedraw_wrapMode (s : State) (b : Bool) : (s.setRedraw b).wrapMode = s.wrapMode := rfl
@[simp] theorem State.setRedraw_dialect (s : State) (b : Bool) : (s.setRedraw b).dialect = s.dialect := rfl
@[simp] theorem State.setRedraw_font (s : State) (b : Bool) : (s.setRedraw b).font = s.font := rfl
@[simp] theorem State.setRedraw_draws (s : State) (b : Bool) : (s.setRedraw b).draws = s.draws := rfl
@[simp] theorem State.setRedraw_stepped (s : State) (b : Bool) : (s.setRedraw b).stepped = s.stepped := rfl
@[simp] theorem State.reg_setRedraw (s : State) (b : Bool) (r : Reg) : (s.setRedraw b).reg r = s.reg r := rfl
@[simp] theorem State.byteAt_setRedraw (s : State) (b : Bool) (n : Nat) : (s.setRedraw b).byteAt n = s.byteAt n := rfl
@[simp] theorem State.pixel_setRedraw (s : State) (b : Bool) (p : Pixel) : (s.setRedraw b).pixel p = s.pixel p := rfl
@[simp] theorem State.keyDown_setRedraw (s : State) (b : Bool) (k' : Reg) : (s.setRedraw b).keyDown k' = s.keyDown k' := rfl

/-! ### setPix -/

@[simp] theorem State.setPix_v (s : State) (d : Display) : (s.setPix d).v = s.v := rfl
@[simp] theorem State.setPix_i (s : State) (d : Display) : (s.setPix d).i = s.i := rfl
@[simp] theorem State.setPix_pc (s : State) (d : Display) : (s.setPix d).pc = s.pc := rfl
@[simp] theorem State.setPix_stack (s : State) (d : Display) : (s.setPix d).stack = s.stack := rfl
@[simp] theorem State.setPix_sp (s : State) (d : Display) : (s.setPix d).sp = s.sp := rfl
@[simp] theorem State.setPix_dt (s : State) (d : Display) : (s.setPix d).dt = s.dt := rfl
@[simp] theorem State.setPix_st (s : State) (d : Display) : (s.setPix d).st = s.st := rfl
@[simp] theorem State.setPix_mem (s : State) (d : Display) : (s.setPix d).mem = s.mem := rfl
@[simp] theorem State.setPix_pix (s : State) (d : Display) : (s.setPix d).pix = d := rfl
@[simp] theorem State.setPix_redraw (s : State) (d : Display) : (s.setPix d).redraw = s.redraw := rfl
@[simp] theorem State.setPix_powered (s : State) (d : Display) : (s.setPix d).powered = s.powered := rfl
@[simp] theorem State.setPix_fault (s : State) (d : Display) : (s.setPix d).fault = s.fault := rfl
@[simp] theorem State.setPix_key (s : State) (d : Display) : (s.setPix d).key = s.key := rfl
@[simp] theorem State.setPix_wrapMode (s : State) (d : Display) : (s.setPix d).wrapMode = s.wrapMode := rfl
@[simp] theorem State.setPix_dialect (s : State) (d : Display) : (s.setPix d).dialect = s.dialect := rfl
@[simp] theorem State.setPix_font (s : State) (d : Display) : (s.setPix d).font = s.font := rfl
@[simp] theorem State.setPix_draws (s : State) (d : Display) : (s.setPix d).draws = s.draws := rfl
@[simp] theorem State.setPix_stepped (s : State) (d : Display) : (s.setPix d).stepped = s.stepped := rfl
@[simp] theorem State.reg_setPix (s : State) (d : Display) (r : Reg) : (s.setPix d).reg r = s.reg r := rfl
@[simp] theorem State.byteAt_setPix (s : State) (d : Display) (n : Nat) : (s.setPix d).byteAt n = s.byteAt n := rfl
@[simp] theorem State.keyDown_setPix (s : State) (d : Display) (k' : Reg) : (s.setPix d).keyDown k' = s.keyDown k' := rfl

/-! ### latch -/

@[simp] theorem State.latch_v (s : State) (c : Condition) : (s.latch c).v = s.v := rfl
@[simp] theorem State.latch_i (s : State) (c : Condition) : (s.latch c).i = s.i := rfl
@[simp] theorem State.latch_pc (s : State) (c : Condition) : (s.latch c).pc = s.pc := rfl
@[simp] theorem State.latch_stack (s : State) (c : Condition) : (s.latch c).stack = s.stack := rfl
@[simp] theorem State.latch_sp (s : State) (c : Condition) : (s.latch c).sp = s.sp := rfl
@[simp] theorem State.latch_dt (s : State) (c : Condition) : (s.latch c).dt = s.dt := rfl
@[simp] theorem State.latch_st (s : State) (c : Condition) : (s.latch c).st = s.st := rfl
@[simp] theorem State.latch_mem (s : State) (c : Condition) : (s.latch c).mem = s.mem := rfl
@[simp] theorem State.latch_pix (s : State) (c : Condition) : (s.latch c).pix = s.pix := rfl
@[simp] theorem State.latch_redraw (s : State) (c : Condition) : (s.latch c).redraw = s.redraw := rfl
@[simp] theorem State.latch_powered (s : State) (c : Condition) : (s.latch c).powered = s.powered := rfl
@[simp] theorem State.latch_fault (s : State) (c : Condition) : (s.latch c).fault = some c := rfl
@[simp] theorem State.latch_key (s : State) (c : Condition) : (s.latch c).key = s.key := rfl
@[simp] theorem State.latch_wrapMode (s : State) (c : Condition) : (s.latch c).wrapMode = s.wrapMode := rfl
@[simp] theorem State.latch_dialect (s : State) (c : Condition) : (s.latch c).dialect = s.dialect := rfl
@[simp] theorem State.latch_font (s : State) (c : Condition) : (s.latch c).font = s.font := rfl
@[simp] theorem State.latch_draws (s : State) (c : Condition) : (s.latch c).draws = s.draws := rfl
@[simp] theorem State.latch_stepped (s : State) (c : Condition) : (s.latch c).stepped = s.stepped := rfl
@[simp] theorem State.reg_latch (s : State) (c : Condition) (r : Reg) : (s.latch c).reg r = s.reg r := rfl
@[simp] theorem State.byteAt_latch (s : State) (c : Condition) (n : Nat) : (s.latch c).byteAt n = s.byteAt n := rfl
@[simp] theorem State.pixel_latch (s : State) (c : Condition) (p : Pixel) : (s.latch c).pixel p = s.pixel p := rfl
@[simp] theorem State.keyDown_latch (s : State) (c : Condition) (k' : Reg) : (s.latch c).keyDown k' = s.keyDown k' := rfl

/-! ### setByte -/

@[simp] theorem State.setByte_v (s : State) (a : Nat) (b : Byte) : (s.setByte a b).v = s.v := rfl
@[simp] theorem State.setByte_i (s : State) (a : Nat) (b : Byte) : (s.setByte a b).i = s.i := rfl
@[simp] theorem State.setByte_pc (s : State) (a : Nat) (b : Byte) : (s.setByte a b).pc = s.pc := rfl
@[simp] theorem State.setByte_stack (s : State) (a : Nat) (b : Byte) : (s.setByte a b).stack = s.stack := rfl
@[simp] theorem State.setByte_sp (s : State) (a : Nat) (b : Byte) : (s.setByte a b).sp = s.sp := rfl
@[simp] theorem State.setByte_dt (s : State) (a : Nat) (b : Byte) : (s.setByte a b).dt = s.dt := rfl
@[simp] theorem State.setByte_st (s : State) (a : Nat) (b : Byte) : (s.setByte a b).st = s.st := rfl
@[simp] theorem State.setByte_mem (s : State) (a : Nat) (b : Byte) : (s.setByte a b).mem = Memory.write s.font s.mem a b := rfl
@[simp] theorem State.setByte_pix (s : State) (a : Nat) (b : Byte) : (s.setByte a b).pix = s.pix := rfl
@[simp] theorem State.setByte_redraw (s : State) (a : Nat) (b : Byte) : (s.setByte a b).redraw = s.redraw := rfl
@[simp] theorem State.setByte_powered (s : State) (a : Nat) (b : Byte) : (s.setByte a b).powered = s.powered := rfl
@[simp] theorem State.setByte_fault (s : State) (a : Nat) (b : Byte) : (s.setByte a b).fault = s.fault := rfl
@[simp] theorem State.setByte_key (s : State) (a : Nat) (b : Byte) : (s.setByte a b).key = s.key := rfl
@[simp] theorem State.setByte_wrapMode (s : State) (a : Nat) (b : Byte) : (s.setByte a b).wrapMode = s.wrapMode := rfl
@[simp] theorem State.setByte_dialect (s : State) (a : Nat) (b : Byte) : (s.setByte a b).dialect = s.dialect := rfl
@[simp] theorem State.setByte_font (s : State) (a : Nat) (b : Byte) : (s.setByte a b).font = s.font := rfl
@[simp] theorem State.setByte_draws (s : State) (a : Nat) (b : Byte) : (s.setByte a b).draws = s.draws := rfl
@[simp] theorem State.setByte_stepped (s : State) (a : Nat) (b : Byte) : (s.setByte a b).stepped = s.stepped := rfl
@[simp] theorem State.reg_setByte (s : State) (a : Nat) (b : Byte) (r : Reg) : (s.setByte a b).reg r = s.reg r := rfl
@[simp] theorem State.pixel_setByte (s : State) (a : Nat) (b : Byte) (p : Pixel) : (s.setByte a b).pixel p = s.pixel p := rfl
@[simp] theorem State.keyDown_setByte (s : State) (a : Nat) (b : Byte) (k' : Reg) : (s.setByte a b).keyDown k' = s.keyDown k' := rfl

/-! ### endOfStep -/

@[simp] theorem State.endOfStep_v (s : State) : (s.endOfStep).v = s.v := rfl
@[simp] theorem State.endOfStep_i (s : State) : (s.endOfStep).i = s.i := rfl
@[simp] theorem State.endOfStep_pc (s : State) : (s.endOfStep).pc = s.pc := rfl
@[simp] theorem State.endOfStep_stack (s : State) : (s.endOfStep).stack = s.stack := rfl
@[simp] theorem State.endOfStep_sp (s : State) : (s.endOfStep).sp = s.sp := rfl
@[simp] theorem State.endOfStep_dt (s : State) : (s.endOfStep).dt = if s.fault.isNone then tickTimer s.dt else s.dt := rfl
@[simp] theorem State.endOfStep_st (s : State) : (s.endOfStep).st = if s.fault.isNone then tickTimer s.st else s.st := rfl
@[simp] theorem State.endOfStep_mem (s : State) : (s.endOfStep).mem = s.mem := rfl
@[simp] theorem State.endOfStep_pix (s : State) : (s.endOfStep).pix = s.pix := rfl
@[simp] theorem State.endOfStep_redraw (s : State) : (s.endOfStep).redraw = s.redraw := rfl
@[simp] theorem State.endOfStep_powered (s : State) : (s.endOfStep).powered = s.powered := rfl
@[simp] theorem State.endOfStep_fault (s : State) : (s.endOfStep).fault = s.fault := rfl
@[simp] theorem State.endOfStep_key (s : State) : (s.endOfStep).key = s.key := rfl
@[simp] theorem State.endOfStep_wrapMode (s : State) : (s.endOfStep).wrapMode = s.wrapMode := rfl
@[simp] theorem State.endOfStep_dialect (s : State) : (s.endOfStep).dialect = s.dialect := rfl
@[simp] theorem State.endOfStep_font (s : State) : (s.endOfStep).font = s.font := rfl
@[simp] theorem State.endOfStep_draws (s : State) : (s.endOfStep).draws = s.draws := rfl
@[simp] theorem State.endOfStep_stepped (s : State) : (s.endOfStep).stepped = true := rfl
@[simp] theorem State.reg_endOfStep (s : State) (r : Reg) : (s.endOfStep).reg r = s.reg r := rfl
@[simp] theorem State.byteAt_endOfStep (s : State) (n : Nat) : (s.endOfStep).byteAt n = s.byteAt n := rfl
@[simp] theorem State.pixel_endOfStep (s : State) (p : Pixel) : (s.endOfStep).pixel p = s.pixel p := rfl
@[simp] theorem State.keyDown_endOfStep (s : State) (k' : Reg) : (s.endOfStep).keyDown k' = s.keyDown k' := rfl

/-! ### setFlag -/

@[simp] theorem State.setFlag_v (s : State) (f : Bool) : (s.setFlag f).v = s.v.set 15 (flagByte f) := rfl
@[simp] theorem State.setFlag_i (s : State) (f : Bool) : (s.setFlag f).i = s.i := rfl
@[simp] theorem State.setFlag_pc (s : State) (f : Bool) : (s.setFlag f).pc = s.pc := rfl
@[simp] theorem State.setFlag_stack (s : State) (f : Bool) : (s.setFlag f).stack = s.stack := rfl
@[simp] theorem State.setFlag_sp (s : State) (f : Bool) : (s.setFlag f).sp = s.sp := rfl
@[simp] theorem State.setFlag_dt (s : State) (f : Bool) : (s.setFlag f).dt = s.dt := rfl
@[simp] theorem State.setFlag_st (s : State) (f : Bool) : (s.setFlag f).st = s.st := rfl
@[simp] theorem State.setFlag_mem (s : State) (f : Bool) : (s.setFlag f).mem = s.mem := rfl
@[simp] theorem State.setFlag_pix (s : State) (f : Bool) : (s.setFlag f).pix = s.pix := rfl
@[simp] theorem State.setFlag_redraw (s : State) (f : Bool) : (s.setFlag f).redraw = s.redraw := rfl
@[simp] theorem State.setFlag_powered (s : State) (f : Bool) : (s.setFlag f).powered = s.powered := rfl
@[simp] theorem State.setFlag_fault (s : State) (f : Bool) : (s.setFlag f).fault = s.fault := rfl
@[simp] theorem State.setFlag_key (s : State) (f : Bool) : (s.setFlag f).key = s.key := rfl
@[simp] theorem State.setFlag_wrapMode (s : State) (f : Bool) : (s.setFlag f).wrapMode = s.wrapMode := rfl
@[simp] theorem State.setFlag_dialect (s : State) (f : Bool) : (s.setFlag f).dialect = s.dialect := rfl
@[simp] theorem State.setFlag_font (s : State) (f : Bool) : (s.setFlag f).font = s.font := rfl
@[simp] theorem State.setFlag_draws (s : State) (f : Bool) : (s.setFlag f).draws = s.draws := rfl
@[simp] theorem State.setFlag_stepped (s : State) (f : Bool) : (s.setFlag f).stepped = s.stepped := rfl
@[simp] theorem State.byteAt_setFlag (s : State) (f : Bool) (n : Nat) : (s.setFlag f).byteAt n = s.byteAt n := rfl
@[simp] theorem State.pixel_setFlag (s : State) (f : Bool) (p : Pixel) : (s.setFlag f).pixel p = s.pixel p := rfl
@[simp] theorem State.keyDown_setFlag (s : State) (f : Bool) (k' : Reg) : (s.setFlag f).keyDown k' = s.keyDown k' := rfl

/-! ### setResult -/

@[simp] theorem State.setResult_v (s : State) (x : Reg) (b : Byte) (f : Bool) : (s.setResult x b f).v = (s.v.set x.val b).set 15 (flagByte f) := rfl
@[simp] theorem State.setResult_i (s : State) (x : Reg) (b : Byte) (f : Bool) : (s.setResult x b f).i = s.i := rfl
@[simp] theorem State.setResult_pc (s : State) (x : Reg) (b : Byte) (f : Bool) : (s.setResult x b f).pc = s.pc := rfl
@[simp] theorem State.setResult_stack (s : State) (x : Reg) (b : Byte) (f : Bool) : (s.setResult x b f).stack = s.stack := rfl
@[simp] theorem State.setResult_sp (s : State) (x : Reg) (b : Byte) (f : Bool) : (s.setResult x b f).sp = s.sp := rfl
@[simp] theorem State.setResult_dt (s : State) (x : Reg) (b : Byte) (f : Bool) : (s.setResult x b f).dt = s.dt := rfl
@[simp] theorem State.setResult_st (s : State) (x : Reg) (b : Byte) (f : Bool) : (s.setResult x b f).st = s.st := rfl
@[simp] theorem State.setResult_mem (s : State) (x : Reg) (b : Byte) (f : Bool) : (s.setResult x b f).mem = s.mem := rfl
@[simp] theorem State.setResult_pix (s : State) (x : Reg) (b : Byte) (f : Bool) : (s.setResult x b f).pix = s.pix := rfl
@[simp] theorem State.setResult_redraw (s : State) (x : Reg) (b : Byte) (f : Bool) : (s.setResult x b f).redraw = s.redraw := rfl
@[simp] theorem State.setResult_powered (s : State) (x : Reg) (b : Byte) (f : Bool) : (s.setResult x b f).powered = s.powered := rfl
@[simp] theorem State.setResult_fault (s : State) (x : Reg) (b : Byte) (f : Bool) : (s.setResult x b f).fault = s.fault := rfl
@[simp] theorem State.setResult_key (s : State) (x : Reg) (b : Byte) (f : Bool) : (s.setResult x b f).key = s.key := rfl
@[simp] theorem State.setResult_wrapMode (s : State) (x : Reg) (b : Byte) (f : Bool) : (s.setResult x b f).wrapMode = s.wrapMode := rfl
@[simp] theorem State.setResult_dialect (s : State) (x : Reg) (b : Byte) (f : Bool) : (s.setResult x b f).dialect = s.dialect := rfl
@[simp] theorem State.setResult_font (s : State) (x : Reg) (b : Byte) (f : Bool) : (s.setResult x b f).font = s.font := rfl
@[simp] theorem State.setResult_draws (s : State) (x : Reg) (b : Byte) (f : Bool) : (s.setResult x b f).draws = s.draws := rfl
@[simp] theorem State.setResult_stepped (s : State) (x : Reg) (b : Byte) (f : Bool) : (s.setResult x b f).stepped = s.stepped := rfl
@[simp] theorem State.byteAt_setResult (s : State) (x : Reg) (b : Byte) (f : Bool) (n : Nat) : (s.setResult x b f).byteAt n = s.byteAt n := rfl
@[simp] theorem State.pixel_setResult (s : State) (x : Reg) (b : Byte) (f : Bool) (p : Pixel) : (s.setResult x b f).pixel p = s.pixel p := rfl
@[simp] theorem State.keyDown_setResult (s : State) (x : Reg) (b : Byte) (f : Bool) (k' : Reg) : (s.setResult x b f).keyDown k' = s.keyDown k' := rfl

/-! ### drawByte -/

@[simp] theorem State.drawByte_v (s : State) : (s.drawByte.2).v = s.v := rfl
@[simp] theorem State.drawByte_i (s : State) : (s.drawByte.2).i = s.i := rfl
@[simp] theorem State.drawByte_pc (s : State) : (s.drawByte.2).pc = s.pc := rfl
@[simp] theorem State.drawByte_stack (s : State) : (s.drawByte.2).stack = s.stack := rfl
@[simp] theorem State.drawByte_sp (s : State) : (s.drawByte.2).sp = s.sp := rfl
@[simp] theorem State.drawByte_dt (s : State) : (s.drawByte.2).dt = s.dt := rfl
@[simp] theorem State.drawByte_st (s : State) : (s.drawByte.2).st = s.st := rfl
@[simp] theorem State.drawByte_mem (s : State) : (s.drawByte.2).mem = s.mem := rfl
@[simp] theorem State.drawByte_pix (s : State) : (s.drawByte.2).pix = s.pix := rfl
@[simp] theorem State.drawByte_redraw (s : State) : (s.drawByte.2).redraw = s.redraw := rfl
@[simp] theorem State.drawByte_powered (s : State) : (s.drawByte.2).powered = s.powered := rfl
@[simp] theorem State.drawByte_fault (s : State) : (s.drawByte.2).fault = s.fault := rfl
@[simp] theorem State.drawByte_key (s : State) : (s.drawByte.2).key = s.key := rfl
@[simp] theorem State.drawByte_wrapMode (s : State) : (s.drawByte.2).wrapMode = s.wrapMode := rfl
@[simp] theorem State.drawByte_dialect (s : State) : (s.drawByte.2).dialect = s.dialect := rfl
@[simp] theorem State.drawByte_font (s : State) : (s.drawByte.2).font = s.font := rfl
@[simp] theorem State.drawByte_draws (s : State) : (s.drawByte.2).draws = s.draws + 1 := rfl
@[simp] theorem State.drawByte_stepped (s : State) : (s.drawByte.2).stepped = s.stepped := rfl
@[simp] theorem State.reg_drawByte (s : State) (r : Reg) : (s.drawByte.2).reg r = s.reg r := rfl
@[simp] theorem State.byteAt_drawByte (s : State) (n : Nat) : (s.drawByte.2).byteAt n = s.byteAt n := rfl
@[simp] theorem State.pixel_drawByte (s : State) (p : Pixel) : (s.drawByte.2).pixel p = s.pixel p := rfl
@[simp] theorem State.keyDown_drawByte (s : State) (k' : Reg) : (s.drawByte.2).keyDown k' = s.keyDown k' := rfl

/-! ### drawKey -/

@[simp] theorem State.drawKey_v (s : State) (k : Reg) (ks : List Reg) : ((s.drawKey k ks).2).v = s.v := rfl
@[simp] theorem State.drawKey_i (s : State) (k : Reg) (ks : List Reg) : ((s.drawKey k ks).2).i = s.i := rfl
@[simp] theorem State.drawKey_pc (s : State) (k : Reg) (ks : List Reg) : ((s.drawKey k ks).2).pc = s.pc := rfl
@[simp] theorem State.drawKey_stack (s : State) (k : Reg) (ks : List Reg) : ((s.drawKey k ks).2).stack = s.stack := rfl
@[simp] theorem State.drawKey_sp (s : State) (k : Reg) (ks : List Reg) : ((s.drawKey k ks).2).sp = s.sp := rfl
@[simp] theorem State.drawKey_dt (s : State) (k : Reg) (ks : List Reg) : ((s.drawKey k ks).2).dt = s.dt := rfl
@[simp] theorem State.drawKey_st (s : State) (k : Reg) (ks : List Reg) : ((s.drawKey k ks).2).st = s.st := rfl
@[simp] theorem State.drawKey_mem (s : State) (k : Reg) (ks : List Reg) : ((s.drawKey k ks).2).mem = s.mem := rfl
@[simp] theorem State.drawKey_pix (s : State) (k : Reg) (ks : List Reg) : ((s.drawKey k ks).2).pix = s.pix := rfl
@[simp] theorem State.drawKey_redraw (s : State) (k : Reg) (ks : List Reg) : ((s.drawKey k ks).2).redraw = s.redraw := rfl
@[simp] theorem State.drawKey_powered (s : State) (k : Reg) (ks : List Reg) : ((s.drawKey k ks).2).powered = s.powered := rfl
@[simp] theorem State.drawKey_fault (s : State) (k : Reg) (ks : List Reg) : ((s.drawKey k ks).2).fault = s.fault := rfl
@[simp] theorem State.drawKey_key (s : State) (k : Reg) (ks : List Reg) : ((s.drawKey k ks).2).key = s.key := rfl
@[simp] theorem State.drawKey_wrapMode (s : State) (k : Reg) (ks : List Reg) : ((s.drawKey k ks).2).wrapMode = s.wrapMode := rfl
@[simp] theorem State.drawKey_dialect (s : State) (k : Reg) (ks : List Reg) : ((s.drawKey k ks).2).dialect = s.dialect := rfl
@[simp] theorem State.drawKey_font (s : State) (k : Reg) (ks : List Reg) : ((s.drawKey k ks).2).font = s.font := rfl
@[simp] theorem State.drawKey_draws (s : State) (k : Reg) (ks : List Reg) : ((s.drawKey k ks).2).draws = s.draws + 1 := rfl
@[simp] theorem State.drawKey_stepped (s : State) (k : Reg) (ks : List Reg) : ((s.drawKey k ks).2).stepped = s.stepped := rfl
@[simp] theorem State.reg_drawKey (s : State) (k : Reg) (ks : List Reg) (r : Reg) : ((s.drawKey k ks).2).reg r = s.reg r := rfl
@[simp] theorem State.byteAt_drawKey (s : State) (k : Reg) (ks : List Reg) (n : Nat) : ((s.drawKey k ks).2).byteAt n = s.byteAt n := rfl
@[simp] theorem State.pixel_drawKey (s : State) (k : Reg) (ks : List Reg) (p : Pixel) : ((s.drawKey k ks).2).pixel p = s.pixel p := rfl
@[simp] theorem State.keyDown_drawKey (s : State) (k : Reg) (ks : List Reg) (k' : Reg) : ((s.drawKey k ks).2).keyDown k' = s.keyDown k' := rfl

/-! ### Registers, pixels and keys read back -/

@[simp] theorem State.reg_setReg (s : State) (x r : Reg) (b : Byte) :
    (s.setReg x b).reg r = if r = x then b else s.reg r := by
  simp only [State.reg, State.setReg, Vector.getElem_set, Fin.val_inj, eq_comm]

@[simp] theorem State.reg_setFlag (s : State) (f : Bool) (r : Reg) :
    (s.setFlag f).reg r = if r = flagReg then flagByte f else s.reg r :=
  State.reg_setReg s flagReg r (flagByte f)

@[simp] theorem State.reg_setResult (s : State) (x r : Reg) (b : Byte) (f : Bool) :
    (s.setResult x b f).reg r =
      if r = flagReg then flagByte f else if r = x then b else s.reg r := by
  simp [State.setResult]

/-- Clearing the redraw flag twice is clearing it once. -/
@[simp] theorem State.setRedraw_setRedraw (s : State) (b c : Bool) :
    (s.setRedraw b).setRedraw c = s.setRedraw c := rfl

/-- Two states with the same fields are the same state, registers and stack slots taken one by one. -/
theorem State.reg_ext {s t : State} (h : ∀ r, t.reg r = s.reg r) : t.v = s.v := by
  apply Vector.ext
  intro k hk
  exact h ⟨k, hk⟩

end Sys2Proof.Machine
end

