-- ==== Sys2Proof/Laws/Ops.lean ====
section
/-! SUPPORT. What each shared operation does, said once: memory transfers, the range check, the stack,
the fetch, the end of the step, and what a step can do. -/

namespace Sys2Proof.Machine

@[simp] theorem State.regNat_eq (s : State) (r : Reg) : s.regNat r = (s.reg r).toNat := rfl

/-! ### Bytes -/

/-- Read after write at one address (20_memory.md R55). -/
@[simp] theorem State.byteAt_setByte (s : State) (a : Nat) (b : Byte) (n : Nat) :
    (s.setByte a b).byteAt n = if n = a then b else s.byteAt n :=
  Memory.read_write s.font s.mem a b n

/-- A store of bytes changes memory only. -/
theorem State.storeBytes_eq (s : State) (a : Nat) (bs : List Byte) :
    s.storeBytes a bs = { s with mem := (s.storeBytes a bs).mem } := by
  induction bs generalizing s a with
  | nil => rfl
  | cons b bs ih => rw [State.storeBytes, ih]; rfl

@[simp] theorem State.storeBytes_v (s : State) (a : Nat) (bs : List Byte) : (s.storeBytes a bs).v = s.v := by rw [storeBytes_eq]
@[simp] theorem State.storeBytes_i (s : State) (a : Nat) (bs : List Byte) : (s.storeBytes a bs).i = s.i := by rw [storeBytes_eq]
@[simp] theorem State.storeBytes_pc (s : State) (a : Nat) (bs : List Byte) : (s.storeBytes a bs).pc = s.pc := by rw [storeBytes_eq]
@[simp] theorem State.storeBytes_stack (s : State) (a : Nat) (bs : List Byte) : (s.storeBytes a bs).stack = s.stack := by rw [storeBytes_eq]
@[simp] theorem State.storeBytes_sp (s : State) (a : Nat) (bs : List Byte) : (s.storeBytes a bs).sp = s.sp := by rw [storeBytes_eq]
@[simp] theorem State.storeBytes_dt (s : State) (a : Nat) (bs : List Byte) : (s.storeBytes a bs).dt = s.dt := by rw [storeBytes_eq]
@[simp] theorem State.storeBytes_st (s : State) (a : Nat) (bs : List Byte) : (s.storeBytes a bs).st = s.st := by rw [storeBytes_eq]
@[simp] theorem State.storeBytes_pix (s : State) (a : Nat) (bs : List Byte) : (s.storeBytes a bs).pix = s.pix := by rw [storeBytes_eq]
@[simp] theorem State.storeBytes_redraw (s : State) (a : Nat) (bs : List Byte) : (s.storeBytes a bs).redraw = s.redraw := by rw [storeBytes_eq]
@[simp] theorem State.storeBytes_powered (s : State) (a : Nat) (bs : List Byte) : (s.storeBytes a bs).powered = s.powered := by rw [storeBytes_eq]
@[simp] theorem State.storeBytes_fault (s : State) (a : Nat) (bs : List Byte) : (s.storeBytes a bs).fault = s.fault := by rw [storeBytes_eq]
@[simp] theorem State.storeBytes_key (s : State) (a : Nat) (bs : List Byte) : (s.storeBytes a bs).key = s.key := by rw [storeBytes_eq]
@[simp] theorem State.storeBytes_wrapMode (s : State) (a : Nat) (bs : List Byte) : (s.storeBytes a bs).wrapMode = s.wrapMode := by rw [storeBytes_eq]
@[simp] theorem State.storeBytes_dialect (s : State) (a : Nat) (bs : List Byte) : (s.storeBytes a bs).dialect = s.dialect := by rw [storeBytes_eq]
@[simp] theorem State.storeBytes_font (s : State) (a : Nat) (bs : List Byte) : (s.storeBytes a bs).font = s.font := by rw [storeBytes_eq]
@[simp] theorem State.storeBytes_draws (s : State) (a : Nat) (bs : List Byte) : (s.storeBytes a bs).draws = s.draws := by rw [storeBytes_eq]
@[simp] theorem State.storeBytes_stepped (s : State) (a : Nat) (bs : List Byte) : (s.storeBytes a bs).stepped = s.stepped := by rw [storeBytes_eq]

/-- A store of bytes, read back one byte at a time (20_memory.md R53, R55). -/
theorem State.byteAt_storeBytes (s : State) (a : Nat) (bs : List Byte) (n : Nat) :
    (s.storeBytes a bs).byteAt n =
      if a ≤ n ∧ n < a + bs.length then bs.getD (n - a) 0 else s.byteAt n := by
  induction bs generalizing s a with
  | nil => simp [State.storeBytes]
  | cons b bs ih =>
    rw [State.storeBytes, ih, byteAt_setByte]
    by_cases h : n = a
    · subst h; simp
    · by_cases h1 : a + 1 ≤ n ∧ n < a + 1 + bs.length
      · have h2 : a ≤ n ∧ n < a + (b :: bs).length := by simp only [List.length_cons]; omega
        have h3 : n - a = (n - (a + 1)) + 1 := by omega
        rw [if_pos h1, if_pos h2, h3]; simp
      · have h2 : ¬ (a ≤ n ∧ n < a + (b :: bs).length) := by simp only [List.length_cons]; omega
        rw [if_neg h1, if_neg h2, if_neg h]

/-- A store inside the address space keeps the canonical form. -/
theorem State.wf_storeBytes (s : State) (a : Nat) (bs : List Byte) (h : Memory.wf s.font s.mem)
    (ha : a + bs.length ≤ memSize) : Memory.wf s.font (s.storeBytes a bs).mem := by
  induction bs generalizing s a with
  | nil => exact h
  | cons b bs ih =>
    simp only [List.length_cons] at ha
    exact ih (s.setByte a b) (a + 1) (Memory.wf_write h (by omega)) (by omega)

theorem State.loadBytes_eq (s : State) (a len : Nat) :
    s.loadBytes a len = (List.range len).map fun k => s.byteAt (a + k) := by
  induction len generalizing a with
  | zero => rfl
  | succ len ih =>
    rw [State.loadBytes, ih, List.range_succ_eq_map, List.map_cons, List.map_map]
    simp only [Nat.add_zero, List.cons.injEq, true_and, List.map_inj_left]
    intro k _
    simp only [Function.comp_apply, Nat.succ_eq_add_one]
    congr 1; omega

@[simp] theorem State.loadBytes_length (s : State) (a len : Nat) : (s.loadBytes a len).length = len := by
  simp [loadBytes_eq]

theorem State.loadBytes_getD (s : State) (a len k : Nat) (hk : k < len) :
    (s.loadBytes a len).getD k 0 = s.byteAt (a + k) := by
  simp [loadBytes_eq, List.getD_eq_getElem?_getD, hk]

/-! ### The range check (20_memory.md R55) -/

theorem rangeFault_none {base len : Nat} (h : len = 0 ∨ base + len ≤ memSize) :
    rangeFault base len = none := by
  unfold rangeFault
  rw [if_neg]
  simp only [memSize] at h
  omega

theorem rangeFault_some {base len : Nat} (h : len ≠ 0 ∧ memSize < base + len) :
    rangeFault base len = some (.memoryOutOfRange (max base 0x1000)) := by
  unfold rangeFault
  rw [if_pos]
  simp only [memSize] at h
  omega

/-- A read of bytes either answers them all, in range, or raises the one condition. -/
theorem State.readBytes_cases (s : State) (base len : Nat) :
    ((len = 0 ∨ base + len ≤ memSize) ∧ s.readBytes base len = .ok (s.loadBytes base len)) ∨
    ((len ≠ 0 ∧ memSize < base + len) ∧
      s.readBytes base len = .error (.memoryOutOfRange (max base 0x1000))) := by
  by_cases h : len = 0 ∨ base + len ≤ memSize
  · exact .inl ⟨h, by simp [State.readBytes, rangeFault_none h]⟩
  · have h' : len ≠ 0 ∧ memSize < base + len := by omega
    exact .inr ⟨h', by simp [State.readBytes, rangeFault_some h']⟩

/-- A write of bytes either stores them all, in range, or raises the one condition. -/
theorem State.writeBytes_cases (s : State) (base : Nat) (bs : List Byte) :
    ((bs.length = 0 ∨ base + bs.length ≤ memSize) ∧ s.writeBytes base bs = .ok (s.storeBytes base bs)) ∨
    ((bs.length ≠ 0 ∧ memSize < base + bs.length) ∧
      s.writeBytes base bs = .error (.memoryOutOfRange (max base 0x1000))) := by
  by_cases h : bs.length = 0 ∨ base + bs.length ≤ memSize
  · exact .inl ⟨h, by simp only [State.writeBytes, rangeFault_none h]⟩
  · have h' : bs.length ≠ 0 ∧ memSize < base + bs.length := by omega
    exact .inr ⟨h', by simp only [State.writeBytes, rangeFault_some h']⟩

/-! ### Register ranges and digits -/

@[simp] theorem mem_regsUpTo (x k : Reg) : k ∈ regsUpTo x ↔ k ≤ x := by
  simp [regsUpTo]

@[simp] theorem regsUpTo_length (x : Reg) : (regsUpTo x).length = x.val + 1 := by
  revert x; decide

theorem regsUpTo_getD (x : Reg) (k : Nat) (hk : k ≤ x.val) : ((regsUpTo x).getD k 0).val = k := by
  have h : ∀ x : Reg, ∀ k : Fin 16, k ≤ x → ((regsUpTo x).getD k.val 0).val = k.val := by decide
  exact h x ⟨k, by omega⟩ hk

@[simp] theorem bcdDigits_length (b : Byte) : (bcdDigits b).length = 3 := rfl

/-- Writing registers changes registers only. -/
theorem State.setRegs_eq (s : State) (l : List (Reg × Byte)) :
    s.setRegs l = { s with v := (s.setRegs l).v } := by
  induction l generalizing s with
  | nil => rfl
  | cons p l ih =>
    have h : s.setRegs (p :: l) = (s.setReg p.1 p.2).setRegs l := rfl
    rw [h, ih]; rfl

/-- The registers a list does not name are unchanged. -/
theorem State.reg_setRegs_of_not_mem (s : State) (l : List (Reg × Byte)) (r : Reg)
    (h : r ∉ l.map Prod.fst) : (s.setRegs l).reg r = s.reg r := by
  induction l generalizing s with
  | nil => rfl
  | cons p l ih =>
    simp only [List.map_cons, List.mem_cons, not_or] at h
    have h1 : s.setRegs (p :: l) = (s.setReg p.1 p.2).setRegs l := rfl
    rw [h1, ih _ h.2, State.reg_setReg, if_neg h.1]

/-- A register named once in a list takes the byte beside it. -/
theorem State.reg_setRegs_of_mem (s : State) (l : List (Reg × Byte)) (r : Reg) (b : Byte)
    (hd : (l.map Prod.fst).Nodup) (h : (r, b) ∈ l) : (s.setRegs l).reg r = b := by
  induction l generalizing s with
  | nil => cases h
  | cons p l ih =>
    have h1 : s.setRegs (p :: l) = (s.setReg p.1 p.2).setRegs l := rfl
    rw [List.map_cons, List.nodup_cons] at hd
    rw [h1]
    rcases List.mem_cons.1 h with h | h
    · subst h
      rw [State.reg_setRegs_of_not_mem _ _ _ hd.1, State.reg_setReg, if_pos rfl]
    · exact ih _ hd.2 h

/-- The transfer of `FX65`: register `k` up to `x` takes the byte at `a + k`, the others are unchanged. -/
theorem State.reg_loadRegs (s t : State) (x r : Reg) (a : Nat) :
    (t.setRegs ((regsUpTo x).zip (s.loadBytes a (x.val + 1)))).reg r =
      if r ≤ x then s.byteAt (a + r.val) else t.reg r := by
  have hf : ((regsUpTo x).zip (s.loadBytes a (x.val + 1))).map Prod.fst = regsUpTo x :=
    List.map_fst_zip (by simp)
  by_cases h : r ≤ x
  · rw [if_pos h]
    apply State.reg_setRegs_of_mem
    · rw [hf]; exact (List.nodup_finRange 16).filter _
    · have hx : r.val ≤ x.val := h
      have hr : r.val < (regsUpTo x).length := by rw [regsUpTo_length]; omega
      have hk : ((regsUpTo x).zip (s.loadBytes a (x.val + 1)))[r.val]? = some (r, s.byteAt (a + r.val)) := by
        have e1 : (regsUpTo x)[r.val]? = some r := by
          have := regsUpTo_getD x r.val h
          rw [List.getD_eq_getElem?_getD, List.getElem?_eq_getElem hr] at this
          rw [List.getElem?_eq_getElem hr]
          exact congrArg some (Fin.ext this)
        have e2 : (s.loadBytes a (x.val + 1))[r.val]? = some (s.byteAt (a + r.val)) := by
          rw [State.loadBytes_eq, List.getElem?_map, List.getElem?_range (by omega)]; rfl
        rw [List.getElem?_zip_eq_some]
        exact ⟨e1, e2⟩
      exact List.mem_of_getElem? hk
  · rw [if_neg h]
    apply State.reg_setRegs_of_not_mem
    rw [hf, mem_regsUpTo]; exact h

/-! ### The stack (10_state.md R25) -/

theorem State.push_full {s : State} (w : Word) (h : s.sp.val = 16) : s.push w = .error .stackOverflow := by
  simp [State.push, h]

theorem State.push_room {s : State} (w : Word) (h : s.sp.val < 16) :
    ∃ t, s.push w = .ok t ∧
      t = { s with stack := s.stack.set s.sp.val w, sp := ⟨s.sp.val + 1, by omega⟩ } := by
  simp [State.push, h]

theorem State.pop_empty {s : State} (h : s.sp.val = 0) : s.pop = .error .stackUnderflow := by
  simp [State.pop, h]

theorem State.pop_some {s : State} (h : s.sp.val ≠ 0) :
    s.pop = .ok (s.stack[s.sp.val - 1], { s with sp := ⟨s.sp.val - 1, by omega⟩ }) := by
  simp [State.pop, h]

/-! ### Keys (45_keys_timers.md R162) -/

@[simp] theorem State.mem_keysDown (s : State) (k : Reg) : k ∈ s.keysDown ↔ s.keyDown k = true := by
  simp [State.keysDown]

/-- The key drawn is one of those given. -/
theorem State.drawKey_among (s : State) (k : Reg) (ks : List Reg) : (s.drawKey k ks).1 ∈ k :: ks := by
  unfold State.drawKey
  have h : Config.keyChoice s.draws s.key % (ks.length + 1) < (k :: ks).length :=
    Nat.mod_lt _ (Nat.succ_pos _)
  rw [List.getD_eq_getElem?_getD, List.getElem?_eq_getElem h]
  exact List.getElem_mem h

/-- With one key down there is no choice (45_keys_timers.md R162). -/
@[simp] theorem State.drawKey_single (s : State) (k : Reg) : (s.drawKey k []).1 = k := by
  simp [State.drawKey, Nat.mod_one]

/-! ### The fetch (40_cycle.md R92, R93) -/

/-- The word the fetch joins from the two bytes at pc. -/
def State.fetchWord (s : State) : Word := joinBytes (s.byteAt s.pc.toNat) (s.byteAt (s.pc.toNat + 1))

theorem State.fetchInstr_eq (s : State) (h : s.pc.toNat ≤ 0xFFE) :
    s.fetchInstr = match decode s.fetchWord with
      | .ok i => .ok i
      | .error _ => .error (.illegalOpcode s.fetchWord) := by
  have hr : s.readBytes s.pc.toNat 2 = .ok [s.byteAt s.pc.toNat, s.byteAt (s.pc.toNat + 1)] := by
    have : rangeFault s.pc.toNat 2 = none := rangeFault_none (.inr (by simp only [memSize]; omega))
    simp [State.readBytes, this, State.loadBytes]
  unfold State.fetchInstr
  rw [hr]
  rfl

theorem State.fetchInstr_out (s : State) (h : 0xFFE < s.pc.toNat) :
    s.fetchInstr = .error (.memoryOutOfRange (max s.pc.toNat 0x1000)) := by
  have : rangeFault s.pc.toNat 2 = some (.memoryOutOfRange (max s.pc.toNat 0x1000)) :=
    rangeFault_some ⟨by omega, by simp only [memSize]; omega⟩
  simp [State.fetchInstr, State.readBytes, this]

/-- The fetch answers an instruction only from inside memory, and then the decoded word. -/
theorem State.fetchInstr_ok {s : State} {i : Instr} (h : s.fetchInstr = .ok i) :
    s.pc.toNat ≤ 0xFFE ∧ decode s.fetchWord = .ok i := by
  by_cases hp : s.pc.toNat ≤ 0xFFE
  · refine ⟨hp, ?_⟩
    rw [s.fetchInstr_eq hp] at h
    split at h
    · rename_i hd; rw [hd, Except.ok.inj h]
    · cases h
  · rw [s.fetchInstr_out (by omega)] at h; cases h

/-- The conditions a fetch can raise (60_exceptions.md R176). -/
theorem State.fetchInstr_error {s : State} {c : Condition} (h : s.fetchInstr = .error c) :
    (0xFFE < s.pc.toNat ∧ c = .memoryOutOfRange (max s.pc.toNat 0x1000)) ∨
    (s.pc.toNat ≤ 0xFFE ∧ c = .illegalOpcode s.fetchWord ∧
      decode s.fetchWord = .error (.illegalOpcode s.fetchWord)) := by
  by_cases hp : s.pc.toNat ≤ 0xFFE
  · rw [s.fetchInstr_eq hp] at h
    split at h
    · cases h
    · rename_i e hd
      exact .inr ⟨hp, (Except.error.inj h).symm, by rw [hd, decode_error hd]⟩
  · have hp' : 0xFFE < s.pc.toNat := by omega
    rw [s.fetchInstr_out hp'] at h
    exact .inl ⟨hp', (Except.error.inj h).symm⟩

/-- The fetch depends on pc and on what memory reads alone (20_memory.md R61). -/
theorem State.fetchInstr_congr {s t : State} (hp : t.pc = s.pc) (hb : ∀ a, t.byteAt a = s.byteAt a) :
    t.fetchInstr = s.fetchInstr := by
  have hw : t.fetchWord = s.fetchWord := by simp only [State.fetchWord, hp, hb]
  by_cases h : s.pc.toNat ≤ 0xFFE
  · rw [s.fetchInstr_eq h, t.fetchInstr_eq (by rwa [hp]), hw]
  · rw [s.fetchInstr_out (by omega), t.fetchInstr_out (by rw [hp]; omega), hp]

@[simp] theorem State.fetchInstr_setRedraw (s : State) (b : Bool) :
    (s.setRedraw b).fetchInstr = s.fetchInstr := State.fetchInstr_congr rfl fun _ => rfl

@[simp] theorem State.fetchInstr_latch (s : State) (c : Condition) :
    (s.latch c).fetchInstr = s.fetchInstr := State.fetchInstr_congr rfl fun _ => rfl

@[simp] theorem State.fetchInstr_endOfStep (s : State) : s.endOfStep.fetchInstr = s.fetchInstr :=
  State.fetchInstr_congr rfl fun _ => rfl

/-! ### The step (40_cycle.md R90, R91) -/

theorem State.stepBlocked_enabled {s : State} (h : s.Enabled) : s.stepBlocked = none := by
  simp [State.stepBlocked, h.1, h.2]

theorem State.stepBlocked_disabled {s : State} (h : ¬ s.Enabled) :
    s.stepBlocked = some (.refused .notPowered) ∨ ∃ c, s.stepBlocked = some (.fault (.latched c)) := by
  cases hp : s.powered
  · exact .inl (by simp [State.stepBlocked, hp])
  · cases hf : s.fault with
    | none => exact absurd ⟨hp, hf⟩ h
    | some c => exact .inr ⟨c, by simp [State.stepBlocked, hp, hf]⟩

theorem step_of_fetch_error {s : State} {c : Condition} (h : s.Enabled) (hf : s.fetchInstr = .error c) :
    step s = .next ((s.setRedraw false).latch c).endOfStep := by
  simp [step, State.stepBlocked_enabled h, hf, raise, endStep]

theorem step_of_fetch_ok {s : State} {i : Instr} (h : s.Enabled) (hf : s.fetchInstr = .ok i) :
    step s = endStep (exec i (s.setRedraw false)) := by
  simp [step, State.stepBlocked_enabled h, hf]

/-- What a step that answers a next state has done: the fetch raised, or the decoded instruction ran and
the step ended. -/
theorem step_next {s t : State} (h : step s = .next t) :
    s.Enabled ∧
      ((∃ c, s.fetchInstr = .error c ∧ t = ((s.setRedraw false).latch c).endOfStep) ∨
       (∃ i u, s.fetchInstr = .ok i ∧ exec i (s.setRedraw false) = .next u ∧ t = u.endOfStep)) := by
  have he : s.Enabled := by
    by_contra hn
    rcases State.stepBlocked_disabled hn with hb | ⟨c, hb⟩ <;> simp [step, hb] at h
  refine ⟨he, ?_⟩
  cases hf : s.fetchInstr with
  | error c =>
    rw [step_of_fetch_error he hf] at h
    exact .inl ⟨c, rfl, (Host.Outcome.next.inj h).symm⟩
  | ok i =>
    rw [step_of_fetch_ok he hf] at h
    cases hx : exec i (s.setRedraw false) with
    | next u =>
      rw [hx] at h
      exact .inr ⟨i, u, rfl, hx, (Host.Outcome.next.inj h).symm⟩
    | fault f => rw [hx] at h; cases h
    | refused r => rw [hx] at h; cases h

theorem tickTimer_toNat (b : Byte) : (tickTimer b).toNat = b.toNat - 1 := by
  unfold tickTimer
  split
  · rename_i h; subst h; rfl
  · rename_i h
    have h0 : b.toNat ≠ 0 := fun e => h (BitVec.eq_of_toNat_eq (by simpa using e))
    have := b.isLt
    rw [BitVec.toNat_sub]
    have h1 : (1 : Byte).toNat = 1 := rfl
    omega

end Sys2Proof.Machine
end

