-- ==== Sys2Proof/Laws/Frame.lean ====
section
/-! SUPPORT. Frames compose, and the frame of each update of the state. -/

namespace Sys2Proof.Machine

theorem Part.Same.refl (p : Part) (s : State) : p.Same s s := by
  cases p <;> simp [Part.Same]

theorem Part.Same.trans {p : Part} {s t u : State} (h : p.Same s t) (k : p.Same t u) : p.Same s u := by
  cases p with
  | regs => exact fun r => (k r).trans (h r)
  | stack => exact ⟨k.1.trans h.1, fun n => (k.2 n).trans (h.2 n)⟩
  | memory => exact fun a => (k a).trans (h a)
  | pixels => exact fun a => (k a).trans (h a)
  | settings =>
    exact ⟨k.1.trans h.1, fun n => (k.2.1 n).trans (h.2.1 n), k.2.2.1.trans h.2.2.1,
      k.2.2.2.1.trans h.2.2.2.1, k.2.2.2.2.trans h.2.2.2.2⟩
  | index | pc | delay | sound | redraw | fault | draws | stepped => exact Eq.trans k h

theorem UnchangedExcept.refl (l : List Part) (s : State) : UnchangedExcept l s s :=
  fun p _ => Part.Same.refl p s

theorem UnchangedExcept.trans {l : List Part} {s t u : State} (h : UnchangedExcept l s t)
    (k : UnchangedExcept l t u) : UnchangedExcept l s u :=
  fun p hp => (h p hp).trans (k p hp)

theorem UnchangedExcept.mono {l l' : List Part} {s t : State} (h : UnchangedExcept l s t)
    (hl : ∀ p ∈ l, p ∈ l') : UnchangedExcept l' s t :=
  fun p hp => h p fun hm => hp (hl p hm)

/-! ### The frame of each update -/

theorem unchanged_setReg (s : State) (x : Reg) (b : Byte) : UnchangedExcept [.regs] s (s.setReg x b) := by
  intro p hp; cases p <;> simp [Part.Same] at hp ⊢

theorem unchanged_setFlag (s : State) (f : Bool) : UnchangedExcept [.regs] s (s.setFlag f) := by
  intro p hp; cases p <;> simp [Part.Same] at hp ⊢

theorem unchanged_setResult (s : State) (x : Reg) (b : Byte) (f : Bool) :
    UnchangedExcept [.regs] s (s.setResult x b f) := by
  intro p hp; cases p <;> simp [Part.Same] at hp ⊢

theorem unchanged_setI (s : State) (w : Word) : UnchangedExcept [.index] s (s.setI w) := by
  intro p hp; cases p <;> simp [Part.Same] at hp ⊢

theorem unchanged_setPc (s : State) (w : Word) : UnchangedExcept [.pc] s (s.setPc w) := by
  intro p hp; cases p <;> simp [Part.Same] at hp ⊢

theorem unchanged_setDt (s : State) (b : Byte) : UnchangedExcept [.delay] s (s.setDt b) := by
  intro p hp; cases p <;> simp [Part.Same] at hp ⊢

theorem unchanged_setSt (s : State) (b : Byte) : UnchangedExcept [.sound] s (s.setSt b) := by
  intro p hp; cases p <;> simp [Part.Same] at hp ⊢

theorem unchanged_setRedraw (s : State) (b : Bool) : UnchangedExcept [.redraw] s (s.setRedraw b) := by
  intro p hp; cases p <;> simp [Part.Same] at hp ⊢

theorem unchanged_setPix (s : State) (d : Display) : UnchangedExcept [.pixels] s (s.setPix d) := by
  intro p hp; cases p <;> simp [Part.Same] at hp ⊢

theorem unchanged_latch (s : State) (c : Condition) : UnchangedExcept [.fault] s (s.latch c) := by
  intro p hp; cases p <;> simp [Part.Same] at hp ⊢

theorem unchanged_endOfStep (s : State) : UnchangedExcept [.delay, .sound, .stepped] s s.endOfStep := by
  intro p hp; cases p <;> simp [Part.Same] at hp ⊢

theorem unchanged_drawByte (s : State) : UnchangedExcept [.draws] s s.drawByte.2 := by
  intro p hp; cases p <;> simp [Part.Same] at hp ⊢

theorem unchanged_drawKey (s : State) (k : Reg) (ks : List Reg) :
    UnchangedExcept [.draws] s (s.drawKey k ks).2 := by
  intro p hp; cases p <;> simp [Part.Same] at hp ⊢

theorem unchanged_storeBytes (s : State) (a : Nat) (bs : List Byte) :
    UnchangedExcept [.memory] s (s.storeBytes a bs) := by
  intro p hp; cases p <;> simp [Part.Same, State.reg, State.pixel, State.keyDown] at hp ⊢

theorem unchanged_setRegs (s : State) (l : List (Reg × Byte)) :
    UnchangedExcept [.regs] s (s.setRegs l) := by
  rw [State.setRegs_eq]
  intro p hp
  cases p <;> simp [Part.Same, State.byteAt, State.pixel, State.keyDown] at hp ⊢

end Sys2Proof.Machine
end

