-- ==== Sys2Proof/Laws/Exec.lean ====
section
/-! SUPPORT. What an instruction answers, said once: the two ways out of every instruction that can raise a
condition, that every instruction answers a next state, and which parts of the state it may change. -/

namespace Sys2Proof.Machine

@[simp] theorem complete_eq (adv : Advance) (s : State) :
    complete adv s = .next (s.setPc (s.pc + adv.bytes)) := rfl

@[simp] theorem raise_eq (c : Condition) (s : State) : raise c s = .next (s.latch c) := rfl

@[simp] theorem advance_stay : Advance.stay.bytes = 0 := rfl
@[simp] theorem advance_next : Advance.next.bytes = 2 := rfl
@[simp] theorem skipIf_bytes (b : Bool) : (skipIf b).bytes = if b = true then 4 else 2 := by
  cases b <;> rfl

/-! ### The two ways out (60_exceptions.md R172 to R175) -/

/-- `00EE` on an empty stack raises; otherwise it pops (R101, R174). -/
theorem execRet_cases (s : State) :
    (s.sp.val = 0 ∧ execRet s = .next (s.latch .stackUnderflow)) ∨
    ∃ _h : s.sp.val ≠ 0, execRet s = .next
      { s with pc := s.stack[s.sp.val - 1], sp := ⟨s.sp.val - 1, by omega⟩ } := by
  by_cases h : s.sp.val = 0
  · exact .inl ⟨h, by simp [execRet, State.pop, h]⟩
  · exact .inr ⟨h, by simp [execRet, State.pop, h, State.setPc]⟩

/-- `2NNN` on a full stack raises; otherwise it pushes and jumps (R103, R173). -/
theorem execCall_cases (nnn : Addr12) (s : State) :
    (s.sp.val = 16 ∧ execCall nnn s = .next (s.latch .stackOverflow)) ∨
    ∃ h : s.sp.val < 16, execCall nnn s = .next
      { s with stack := s.stack.set s.sp.val (s.pc + 2), sp := ⟨s.sp.val + 1, by omega⟩,
               pc := addrOperand nnn } := by
  by_cases h : s.sp.val < 16
  · exact .inr ⟨h, by simp [execCall, State.push, h, State.setPc]⟩
  · exact .inl ⟨by omega, by simp [execCall, State.push, h]⟩

/-- A byte is a key number or raises (R175). -/
theorem keyOperand_cases (b : Byte) :
    (15 < b.toNat ∧ keyOperand b = .error (.keyIndexOutOfRange b)) ∨
    ∃ h : b.toNat < 16, keyOperand b = .ok ⟨b.toNat, h⟩ := by
  by_cases h : b.toNat < 16
  · exact .inr ⟨h, by simp [keyOperand, h]⟩
  · exact .inl ⟨by omega, by simp [keyOperand, h]⟩

/-- `EX9E` (R160, R175). -/
theorem execSkp_cases (x : Reg) (s : State) :
    (15 < s.regNat x ∧ execSkp x s = .next (s.latch (.keyIndexOutOfRange (s.reg x)))) ∨
    ∃ h : s.regNat x < 16, execSkp x s = complete (skipIf (s.keyDown ⟨s.regNat x, h⟩)) s := by
  rcases keyOperand_cases (s.reg x) with ⟨h, e⟩ | ⟨h, e⟩
  · exact .inl ⟨h, by simp [execSkp, e]⟩
  · exact .inr ⟨h, by simp [execSkp, e]⟩

/-- `EXA1` (R161, R175). -/
theorem execSknp_cases (x : Reg) (s : State) :
    (15 < s.regNat x ∧ execSknp x s = .next (s.latch (.keyIndexOutOfRange (s.reg x)))) ∨
    ∃ h : s.regNat x < 16, execSknp x s = complete (skipIf (!s.keyDown ⟨s.regNat x, h⟩)) s := by
  rcases keyOperand_cases (s.reg x) with ⟨h, e⟩ | ⟨h, e⟩
  · exact .inl ⟨h, by simp [execSknp, e]⟩
  · exact .inr ⟨h, by simp [execSknp, e]⟩

/-- `DXYN` (R151, R172). -/
theorem execDrw_cases (x y : Reg) (n : Nat) (s : State) :
    ((n ≠ 0 ∧ memSize < s.base + n) ∧
      execDrw x y n s = .next (s.latch (.memoryOutOfRange (max s.base 0x1000)))) ∨
    ((n = 0 ∨ s.base + n ≤ memSize) ∧
      execDrw x y n s = complete .next (((s.setPix
        (drawSprite s.wrapMode (s.originX x) (s.originY y) (s.loadBytes s.base n) s.pix).1).setFlag
        (drawSprite s.wrapMode (s.originX x) (s.originY y) (s.loadBytes s.base n) s.pix).2).setRedraw
          true)) := by
  rcases s.readBytes_cases s.base n with ⟨h, e⟩ | ⟨h, e⟩
  · exact .inr ⟨h, by simp [execDrw, e]⟩
  · exact .inl ⟨h, by simp [execDrw, e]⟩

/-- `FX33` (R144, R172). -/
theorem execLdB_cases (x : Reg) (s : State) :
    (memSize < s.base + 3 ∧ execLdB x s = .next (s.latch (.memoryOutOfRange (max s.base 0x1000)))) ∨
    (s.base + 3 ≤ memSize ∧
      execLdB x s = complete .next (s.storeBytes s.base (bcdDigits (s.reg x)))) := by
  rcases s.writeBytes_cases s.base (bcdDigits (s.reg x)) with ⟨h, e⟩ | ⟨h, e⟩
  · exact .inr ⟨by simpa using h, by simp [execLdB, e]⟩
  · exact .inl ⟨by simpa using h, by simp [execLdB, e]⟩

/-- `FX55` (R145, R172). -/
theorem execStRegs_cases (x : Reg) (s : State) :
    (memSize < s.base + (x.val + 1) ∧
      execStRegs x s = .next (s.latch (.memoryOutOfRange (max s.base 0x1000)))) ∨
    (s.base + (x.val + 1) ≤ memSize ∧ execStRegs x s = complete .next
      ((s.storeBytes s.base ((regsUpTo x).map s.reg)).setI (s.indexAfterTransfer x))) := by
  rcases s.writeBytes_cases s.base ((regsUpTo x).map s.reg) with ⟨h, e⟩ | ⟨h, e⟩
  · exact .inr ⟨by simpa using h, by simp [execStRegs, e]⟩
  · exact .inl ⟨by simpa using h, by simp [execStRegs, e]⟩

/-- `FX65` (R146, R172). -/
theorem execLdRegs_cases (x : Reg) (s : State) :
    (memSize < s.base + (x.val + 1) ∧
      execLdRegs x s = .next (s.latch (.memoryOutOfRange (max s.base 0x1000)))) ∨
    (s.base + (x.val + 1) ≤ memSize ∧ execLdRegs x s = complete .next
      ((s.setRegs ((regsUpTo x).zip (s.loadBytes s.base (x.val + 1)))).setI
        (s.indexAfterTransfer x))) := by
  rcases s.readBytes_cases s.base (x.val + 1) with ⟨h, e⟩ | ⟨h, e⟩
  · exact .inr ⟨by simpa using h, by simp [execLdRegs, e]⟩
  · exact .inl ⟨by simpa using h, by simp [execLdRegs, e]⟩

/-- `FX0A` (R162): no key down and nothing done, or some key among those down. -/
theorem execLdVxK_cases (x : Reg) (s : State) :
    ((∀ k, s.keyDown k = false) ∧ execLdVxK x s = complete .stay s) ∨
    ∃ k ks, s.keysDown = k :: ks ∧
      execLdVxK x s = complete .next ((s.drawKey k ks).2.setReg x (keyNumber (s.drawKey k ks).1)) ∧
      s.keyDown (s.drawKey k ks).1 = true := by
  cases hk : s.keysDown with
  | nil =>
    refine .inl ⟨fun k => ?_, by simp [execLdVxK, hk]⟩
    have hm : k ∉ s.keysDown := by simp [hk]
    simpa using hm
  | cons k ks =>
    refine .inr ⟨k, ks, rfl, by simp [execLdVxK, hk], ?_⟩
    rw [← State.mem_keysDown, hk]
    exact State.drawKey_among s k ks

/-! ### What every instruction answers, and what it may change -/

/-- The parts an instruction may change (10_state.md R38), `FAULT` for those that can raise a condition. -/
def partsOf : Instr → List Part
  | .cls => [.pixels, .redraw, .pc]
  | .ret | .call _ => [.stack, .pc, .fault]
  | .jp _ | .jpV0 _ | .seImm _ _ | .sneImm _ _ | .seReg _ _ | .sneReg _ _ => [.pc]
  | .skp _ | .sknp _ => [.pc, .fault]
  | .rnd _ _ | .ldVxK _ => [.regs, .pc, .draws]
  | .ldI _ | .ldF _ => [.index, .pc]
  | .addI _ => [.regs, .index, .pc]
  | .drw _ _ _ => [.regs, .pixels, .redraw, .pc, .fault]
  | .ldDtVx _ => [.delay, .pc]
  | .ldStVx _ => [.sound, .pc]
  | .ldB _ => [.memory, .pc, .fault]
  | .stRegs _ => [.memory, .index, .pc, .fault]
  | .ldRegs _ => [.regs, .index, .pc, .fault]
  | .ldImm _ _ | .addImm _ _ | .ldReg _ _ | .or _ _ | .and _ _ | .xor _ _ | .addReg _ _ | .sub _ _
  | .shr _ _ | .subn _ _ | .shl _ _ | .ldVxDt _ => [.regs, .pc]

/-- The update's frame, then a completion's: only the parts of the update and pc. -/
theorem unchanged_complete {l : List Part} {s u : State} {adv : Advance} {r : Result}
    (e : r = complete adv u) (h : UnchangedExcept l s u) (hl : Part.pc ∈ l) :
    ∃ t, r = .next t ∧ UnchangedExcept l s t :=
  ⟨_, e, h.trans ((unchanged_setPc u _).mono fun _ hp => (List.mem_singleton.1 hp) ▸ hl)⟩

/-- Every instruction answers a next state, in which only its parts have changed. -/
theorem exec_frame (i : Instr) (s : State) :
    ∃ t, exec i s = .next t ∧ UnchangedExcept (partsOf i) s t := by
  cases i with
  | cls =>
    exact unchanged_complete rfl (((unchanged_setPix s _).mono (by simp [partsOf])).trans
      ((unchanged_setRedraw _ _).mono (by simp [partsOf]))) (by simp [partsOf])
  | ret =>
    rcases execRet_cases s with ⟨_, e⟩ | ⟨_, e⟩
    · exact ⟨_, e, (unchanged_latch s _).mono (by simp [partsOf])⟩
    · refine ⟨_, e, fun p hp => ?_⟩
      cases p <;> simp [partsOf, Part.Same, State.reg, State.byteAt, State.pixel, State.keyDown] at hp ⊢
  | call nnn =>
    rcases execCall_cases nnn s with ⟨_, e⟩ | ⟨_, e⟩
    · exact ⟨_, e, (unchanged_latch s _).mono (by simp [partsOf])⟩
    · refine ⟨_, e, fun p hp => ?_⟩
      cases p <;> simp [partsOf, Part.Same, State.reg, State.byteAt, State.pixel, State.keyDown] at hp ⊢
  | jp nnn | jpV0 nnn => exact unchanged_complete rfl (unchanged_setPc s _) (by simp [partsOf])
  | seImm x nn | sneImm x nn | seReg x y | sneReg x y =>
    exact unchanged_complete rfl (UnchangedExcept.refl _ s) (by simp [partsOf])
  | ldImm x nn | addImm x nn | ldReg x y | or x y | and x y | xor x y | ldVxDt x =>
    exact unchanged_complete rfl ((unchanged_setReg s _ _).mono (by simp [partsOf])) (by simp [partsOf])
  | addReg x y | sub x y | shr x y | subn x y | shl x y =>
    exact unchanged_complete rfl ((unchanged_setResult s _ _ _).mono (by simp [partsOf])) (by simp [partsOf])
  | rnd x nn =>
    exact unchanged_complete rfl (((unchanged_drawByte s).mono (by simp [partsOf])).trans
      ((unchanged_setReg _ _ _).mono (by simp [partsOf]))) (by simp [partsOf])
  | ldI nnn | ldF x => exact unchanged_complete rfl ((unchanged_setI s _).mono (by simp [partsOf])) (by simp [partsOf])
  | addI x =>
    exact unchanged_complete rfl (((unchanged_setI s _).mono (by simp [partsOf])).trans
      ((unchanged_setFlag _ _).mono (by simp [partsOf]))) (by simp [partsOf])
  | ldDtVx x => exact unchanged_complete rfl ((unchanged_setDt s _).mono (by simp [partsOf])) (by simp [partsOf])
  | ldStVx x => exact unchanged_complete rfl ((unchanged_setSt s _).mono (by simp [partsOf])) (by simp [partsOf])
  | skp x =>
    rcases execSkp_cases x s with ⟨_, e⟩ | ⟨_, e⟩
    · exact ⟨_, e, (unchanged_latch s _).mono (by simp [partsOf])⟩
    · exact unchanged_complete e (UnchangedExcept.refl _ s) (by simp [partsOf])
  | sknp x =>
    rcases execSknp_cases x s with ⟨_, e⟩ | ⟨_, e⟩
    · exact ⟨_, e, (unchanged_latch s _).mono (by simp [partsOf])⟩
    · exact unchanged_complete e (UnchangedExcept.refl _ s) (by simp [partsOf])
  | ldVxK x =>
    rcases execLdVxK_cases x s with ⟨_, e⟩ | ⟨k, ks, _, e, _⟩
    · exact unchanged_complete e (UnchangedExcept.refl _ s) (by simp [partsOf])
    · exact unchanged_complete e (((unchanged_drawKey s k ks).mono (by simp [partsOf])).trans
        ((unchanged_setReg _ _ _).mono (by simp [partsOf]))) (by simp [partsOf])
  | drw x y n =>
    rcases execDrw_cases x y n s with ⟨_, e⟩ | ⟨_, e⟩
    · exact ⟨_, e, (unchanged_latch s _).mono (by simp [partsOf])⟩
    · exact unchanged_complete e ((((unchanged_setPix s _).mono (by simp [partsOf])).trans
        ((unchanged_setFlag _ _).mono (by simp [partsOf]))).trans ((unchanged_setRedraw _ _).mono (by simp [partsOf])))
        (by simp [partsOf])
  | ldB x =>
    rcases execLdB_cases x s with ⟨_, e⟩ | ⟨_, e⟩
    · exact ⟨_, e, (unchanged_latch s _).mono (by simp [partsOf])⟩
    · exact unchanged_complete e ((unchanged_storeBytes s _ _).mono (by simp [partsOf])) (by simp [partsOf])
  | stRegs x =>
    rcases execStRegs_cases x s with ⟨_, e⟩ | ⟨_, e⟩
    · exact ⟨_, e, (unchanged_latch s _).mono (by simp [partsOf])⟩
    · exact unchanged_complete e (((unchanged_storeBytes s _ _).mono (by simp [partsOf])).trans
        ((unchanged_setI _ _).mono (by simp [partsOf]))) (by simp [partsOf])
  | ldRegs x =>
    rcases execLdRegs_cases x s with ⟨_, e⟩ | ⟨_, e⟩
    · exact ⟨_, e, (unchanged_latch s _).mono (by simp [partsOf])⟩
    · exact unchanged_complete e (((unchanged_setRegs s _).mono (by simp [partsOf])).trans
        ((unchanged_setI _ _).mono (by simp [partsOf]))) (by simp [partsOf])

/-- The frame of an instruction that answered `t`. -/
theorem exec_unchanged {i : Instr} {s t : State} (h : exec i s = .next t) :
    UnchangedExcept (partsOf i) s t := by
  obtain ⟨u, e, hu⟩ := exec_frame i s
  rw [h] at e
  exact Host.Outcome.next.inj e ▸ hu

/-- An instruction completes, leaving `FAULT` as it is, or raises and changes only `FAULT` (60_exceptions.md
R177). -/
theorem exec_completes_or_raises {i : Instr} {s t : State} (h : exec i s = .next t) :
    t.fault = s.fault ∨ ∃ c, t = s.latch c := by
  cases i with
  | ret =>
    rcases execRet_cases s with ⟨_, e⟩ | ⟨_, e⟩ <;> cases Host.Outcome.next.inj (e.symm.trans h)
    · exact .inr ⟨_, rfl⟩
    · exact .inl rfl
  | call nnn =>
    rcases execCall_cases nnn s with ⟨_, e⟩ | ⟨_, e⟩ <;> cases Host.Outcome.next.inj (e.symm.trans h)
    · exact .inr ⟨_, rfl⟩
    · exact .inl rfl
  | skp x =>
    rcases execSkp_cases x s with ⟨_, e⟩ | ⟨_, e⟩ <;> cases Host.Outcome.next.inj (e.symm.trans h)
    · exact .inr ⟨_, rfl⟩
    · exact .inl rfl
  | sknp x =>
    rcases execSknp_cases x s with ⟨_, e⟩ | ⟨_, e⟩ <;> cases Host.Outcome.next.inj (e.symm.trans h)
    · exact .inr ⟨_, rfl⟩
    · exact .inl rfl
  | drw x y n =>
    rcases execDrw_cases x y n s with ⟨_, e⟩ | ⟨_, e⟩ <;> cases Host.Outcome.next.inj (e.symm.trans h)
    · exact .inr ⟨_, rfl⟩
    · exact .inl rfl
  | ldB x =>
    rcases execLdB_cases x s with ⟨_, e⟩ | ⟨_, e⟩ <;> cases Host.Outcome.next.inj (e.symm.trans h)
    · exact .inr ⟨_, rfl⟩
    · exact .inl (by simp)
  | stRegs x =>
    rcases execStRegs_cases x s with ⟨_, e⟩ | ⟨_, e⟩ <;> cases Host.Outcome.next.inj (e.symm.trans h)
    · exact .inr ⟨_, rfl⟩
    · exact .inl (by simp)
  | ldRegs x =>
    rcases execLdRegs_cases x s with ⟨_, e⟩ | ⟨_, e⟩ <;> cases Host.Outcome.next.inj (e.symm.trans h)
    · exact .inr ⟨_, rfl⟩
    · exact .inl (by rw [State.setRegs_eq]; rfl)
  | _ => exact .inl (exec_unchanged h .fault (by simp [partsOf]))

/-- The frame of an instruction that completed: `FAULT` is not among what it may change. -/
theorem exec_unchanged_of_fault {i : Instr} {s t : State} (h : exec i s = .next t)
    (hf : t.fault = s.fault) : UnchangedExcept ((partsOf i).filter (· ≠ .fault)) s t := by
  intro p hp
  by_cases hq : p = .fault
  · subst hq; exact hf
  · exact exec_unchanged h p fun hm => hp (by simp [hm, hq])

/-- The end of a step that raised a condition only records that a step was taken (R177, log 17). -/
theorem State.endOfStep_of_fault {s : State} (h : s.fault ≠ none) :
    s.endOfStep = { s with stepped := true } := by
  cases hf : s.fault with
  | none => exact absurd hf h
  | some c => cases s; cases hf; rfl

theorem unchanged_endOfStep_of_fault {s : State} (h : s.fault ≠ none) :
    UnchangedExcept [.stepped] s s.endOfStep := by
  rw [State.endOfStep_of_fault h]
  intro p hp
  cases p <;> simp [Part.Same, State.reg, State.byteAt, State.pixel, State.keyDown] at hp ⊢

/-! ### The latch -/

/-- The truth of the latch depends on the latch, pc, the registers, I, SP and what memory reads alone. -/
theorem State.latchTruthful_congr {s t : State} (hs : s.LatchTruthful) (hf : t.fault = s.fault)
    (hp : t.pc = s.pc) (hb : ∀ a, t.byteAt a = s.byteAt a) (hi : t.i = s.i) (hsp : t.sp = s.sp)
    (hr : ∀ r, t.reg r = s.reg r) : t.LatchTruthful := by
  have h1 : t.fetchInstr = s.fetchInstr := State.fetchInstr_congr hp hb
  have h2 : ∀ i a, ReachesOut i t a ↔ ReachesOut i s a := fun i a => by
    unfold ReachesOut readWindow writeWindow State.base; rw [hi]
  unfold State.LatchTruthful at *
  rw [hf]
  split <;> simp_all

/-! ### Several steps -/

@[simp] theorem runSteps_zero (s : State) : runSteps 0 s = .next s := rfl

theorem runSteps_succ {s t : State} (n : Nat) (h : step s = .next t) :
    runSteps (n + 1) s = runSteps n t := by
  rw [runSteps, h]

end Sys2Proof.Machine
end

