-- ==== Sys2Proof/Laws/PerInstr.lean ====
section
/-! SUPPORT. The family RowMatch: an instruction's encoded word lies in its row of the opcode map
(30_encoding.md R74). -/

namespace Sys2Proof.Laws.RowMatch

/-- The word of a well-formed instruction matches its row's mask and match. -/
def Statement (i : Instr) : Prop :=
  i.WellFormed = true → encode i &&& (opcodeRow i).1 = (opcodeRow i).2

/-- Format ADDR: the mask keeps the category. -/
theorem row_addr {c : Nat} (hc : c < 16) (nnn : Addr12) :
    nibbleAddr c nnn &&& 0xF000#16 = BitVec.ofNat 16 (c * 0x1000) := by
  have := nnn.isLt
  apply BitVec.eq_of_toNat_eq
  rw [and_F000_toNat, nibbleAddr_toNat nnn hc, BitVec.toNat_ofNat]
  omega

/-- Format REG_IMM: the mask keeps the category. -/
theorem row_imm {c : Nat} (hc : c < 16) (x : Reg) (nn : Byte) :
    nibbleByte c x nn &&& 0xF000#16 = BitVec.ofNat 16 (c * 0x1000) := by
  have := nn.isLt
  have := x.isLt
  apply BitVec.eq_of_toNat_eq
  rw [and_F000_toNat, nibbleByte_toNat nn hc x.isLt, BitVec.toNat_ofNat]
  omega

/-- Format REG_SUB: the mask keeps the category and the low byte. -/
theorem row_sub {c : Nat} (hc : c < 16) (x : Reg) (nn : Byte) :
    nibbleByte c x nn &&& 0xF0FF#16 = BitVec.ofNat 16 (c * 0x1000 + nn.toNat) := by
  have := nn.isLt
  have := x.isLt
  apply BitVec.eq_of_toNat_eq
  rw [and_F0FF_toNat, nibbleByte_toNat nn hc x.isLt, BitVec.toNat_ofNat]
  omega

/-- Format REG_REG: the mask keeps the category and the low nibble. -/
theorem row_reg {c n : Nat} (hc : c < 16) (hn : n < 16) (x y : Reg) :
    nibbles c x y n &&& 0xF00F#16 = BitVec.ofNat 16 (c * 0x1000 + n) := by
  have := x.isLt
  have := y.isLt
  apply BitVec.eq_of_toNat_eq
  rw [and_F00F_toNat, nibbles_toNat hc x.isLt y.isLt hn, BitVec.toNat_ofNat]
  omega

/-- Format REG_REG_N: the mask keeps the category. -/
theorem row_draw (x y : Reg) {n : Nat} (hn : n < 16) :
    nibbles 0xD x y n &&& 0xF000#16 = 0xD000#16 := by
  have := x.isLt
  have := y.isLt
  apply BitVec.eq_of_toNat_eq
  rw [and_F000_toNat, nibbles_toNat (by omega) x.isLt y.isLt hn]
  simp only [BitVec.toNat_ofNat]
  omega

theorem cls : Statement (.cls) := fun _ => by decide
theorem ret : Statement (.ret) := fun _ => by decide
theorem jp (nnn : Addr12) : Statement (.jp nnn) := fun _ => row_addr (by omega) nnn
theorem call (nnn : Addr12) : Statement (.call nnn) := fun _ => row_addr (by omega) nnn
theorem seImm (x : Reg) (nn : Byte) : Statement (.seImm x nn) := fun _ => row_imm (by omega) x nn
theorem sneImm (x : Reg) (nn : Byte) : Statement (.sneImm x nn) := fun _ => row_imm (by omega) x nn
theorem seReg (x y : Reg) : Statement (.seReg x y) := fun _ => row_reg (by omega) (by omega) x y
theorem ldImm (x : Reg) (nn : Byte) : Statement (.ldImm x nn) := fun _ => row_imm (by omega) x nn
theorem addImm (x : Reg) (nn : Byte) : Statement (.addImm x nn) := fun _ => row_imm (by omega) x nn
theorem ldReg (x y : Reg) : Statement (.ldReg x y) := fun _ => row_reg (by omega) (by omega) x y
theorem or (x y : Reg) : Statement (.or x y) := fun _ => row_reg (by omega) (by omega) x y
theorem and (x y : Reg) : Statement (.and x y) := fun _ => row_reg (by omega) (by omega) x y
theorem xor (x y : Reg) : Statement (.xor x y) := fun _ => row_reg (by omega) (by omega) x y
theorem addReg (x y : Reg) : Statement (.addReg x y) := fun _ => row_reg (by omega) (by omega) x y
theorem sub (x y : Reg) : Statement (.sub x y) := fun _ => row_reg (by omega) (by omega) x y
theorem shr (x y : Reg) : Statement (.shr x y) := fun _ => row_reg (by omega) (by omega) x y
theorem subn (x y : Reg) : Statement (.subn x y) := fun _ => row_reg (by omega) (by omega) x y
theorem shl (x y : Reg) : Statement (.shl x y) := fun _ => row_reg (by omega) (by omega) x y
theorem sneReg (x y : Reg) : Statement (.sneReg x y) := fun _ => row_reg (by omega) (by omega) x y
theorem ldI (nnn : Addr12) : Statement (.ldI nnn) := fun _ => row_addr (by omega) nnn
theorem jpV0 (nnn : Addr12) : Statement (.jpV0 nnn) := fun _ => row_addr (by omega) nnn
theorem rnd (x : Reg) (nn : Byte) : Statement (.rnd x nn) := fun _ => row_imm (by omega) x nn
theorem drw (x y : Reg) (n : Nat) : Statement (.drw x y n) := fun h => row_draw x y (of_decide_eq_true h)
theorem skp (x : Reg) : Statement (.skp x) := fun _ => row_sub (by omega) x _
theorem sknp (x : Reg) : Statement (.sknp x) := fun _ => row_sub (by omega) x _
theorem ldVxDt (x : Reg) : Statement (.ldVxDt x) := fun _ => row_sub (by omega) x _
theorem ldVxK (x : Reg) : Statement (.ldVxK x) := fun _ => row_sub (by omega) x _
theorem ldDtVx (x : Reg) : Statement (.ldDtVx x) := fun _ => row_sub (by omega) x _
theorem ldStVx (x : Reg) : Statement (.ldStVx x) := fun _ => row_sub (by omega) x _
theorem addI (x : Reg) : Statement (.addI x) := fun _ => row_sub (by omega) x _
theorem ldF (x : Reg) : Statement (.ldF x) := fun _ => row_sub (by omega) x _
theorem ldB (x : Reg) : Statement (.ldB x) := fun _ => row_sub (by omega) x _
theorem stRegs (x : Reg) : Statement (.stRegs x) := fun _ => row_sub (by omega) x _
theorem ldRegs (x : Reg) : Statement (.ldRegs x) := fun _ => row_sub (by omega) x _

end Sys2Proof.Laws.RowMatch
end

