-- ==== Sys2Proof/Laws/Words.lean ====
section
/-! SUPPORT. The fields of words written out from the patterns (30_encoding.md R71, R72). -/

namespace Sys2Proof.Machine

/-- Two bit vectors joined, as a number. -/
theorem cat_toNat {m n : Nat} (a : BitVec m) (b : BitVec n) :
    (a ++ b).toNat = a.toNat * 2 ^ n + b.toNat := by
  rw [BitVec.toNat_append, ← Nat.shiftLeft_add_eq_or_of_lt b.isLt, Nat.shiftLeft_eq]

theorem wordCNNN_toNat (c : BitVec 4) (nnn : Addr12) :
    (wordCNNN c nnn).toNat = c.toNat * 0x1000 + nnn.toNat :=
  cat_toNat c nnn

/-- The fields of a word `CNNN`. -/
theorem fields_wordCNNN (c : BitVec 4) (nnn : Addr12) :
    fieldC (wordCNNN c nnn) = c.toNat ∧ fieldNNN (wordCNNN c nnn) = nnn := by
  have h := wordCNNN_toNat c nnn
  have := nnn.isLt
  exact ⟨by rw [fieldC_eq, h]; omega, BitVec.eq_of_toNat_eq (by rw [fieldNNN_toNat, h]; omega)⟩

theorem wordCXNN_toNat (c : BitVec 4) (x : Reg) (nn : Byte) :
    (wordCXNN c x nn).toNat = c.toNat * 0x1000 + x.val * 0x100 + nn.toNat := by
  refine (cat_toNat (c ++ BitVec.ofNat 4 x.val) nn).trans ?_
  rw [cat_toNat, BitVec.toNat_ofNat]
  omega

/-- The fields of a word `CXNN`. -/
theorem fields_wordCXNN (c : BitVec 4) (x : Reg) (nn : Byte) :
    fieldC (wordCXNN c x nn) = c.toNat ∧ fieldX (wordCXNN c x nn) = x ∧
      fieldNN (wordCXNN c x nn) = nn := by
  have h := wordCXNN_toNat c x nn
  have := nn.isLt
  exact ⟨by rw [fieldC_eq, h]; omega, Fin.ext (by rw [fieldX_val, h]; omega),
    BitVec.eq_of_toNat_eq (by rw [fieldNN_toNat, h]; omega)⟩

theorem wordCXYN_toNat (c : BitVec 4) (x y : Reg) (n : BitVec 4) :
    (wordCXYN c x y n).toNat = c.toNat * 0x1000 + x.val * 0x100 + y.val * 0x10 + n.toNat := by
  refine (cat_toNat (c ++ BitVec.ofNat 4 x.val ++ BitVec.ofNat 4 y.val) n).trans ?_
  rw [cat_toNat, cat_toNat, BitVec.toNat_ofNat, BitVec.toNat_ofNat]
  omega

/-- The fields of a word `CXYN`. -/
theorem fields_wordCXYN (c : BitVec 4) (x y : Reg) (n : BitVec 4) :
    fieldC (wordCXYN c x y n) = c.toNat ∧ fieldX (wordCXYN c x y n) = x ∧
      fieldY (wordCXYN c x y n) = y ∧ fieldN (wordCXYN c x y n) = n.toNat := by
  have h := wordCXYN_toNat c x y n
  exact ⟨by rw [fieldC_eq, h]; omega, Fin.ext (by rw [fieldX_val, h]; omega),
    Fin.ext (by rw [fieldY_val, h]; omega), by rw [fieldN_eq, h]; omega⟩

end Sys2Proof.Machine
end

