-- ==== Sys2Proof/Tests/Slice0.lean ====
section
/-! SUPPORT. The model's own tests. Every expected value is one of spec/: a pattern of 30_encoding.md R74,
or the vector of 95_test_vectors.md whose id the test's comment names. Then a witness for the hypotheses
of each statement that has some. -/

namespace Sys2Proof.Tests

open Sys2Proof.Machine

/-! ### Well-formedness: the one check refuses an ill-formed term -/

theorem test_wellFormed_refuses_sixteen_rows : (Instr.drw 0 0 16).WellFormed = false := by decide
theorem test_wellFormed_admits_fifteen_rows : (Instr.drw 15 15 15).WellFormed = true := by decide

/-! ### Decoding, from the patterns of R74 written out bit by bit -/

theorem test_decode_fixed_and_address :
    decode 0b0000000011100000#16 = .ok .cls ∧ decode 0b0000000011101110#16 = .ok .ret ∧
    decode 0b0001001000110100#16 = .ok (.jp 0x234) ∧ decode 0b0010111111110000#16 = .ok (.call 0xFF0) ∧
    decode 0b1010000000001111#16 = .ok (.ldI 0x00F) ∧ decode 0b1011100000000001#16 = .ok (.jpV0 0x801) := by
  decide

theorem test_decode_register_byte :
    decode 0b0011000111110000#16 = .ok (.seImm 1 0xF0) ∧
    decode 0b0100001010000000#16 = .ok (.sneImm 2 0x80) ∧
    decode 0b0110101000101111#16 = .ok (.ldImm 10 0x2F) ∧
    decode 0b0111111100000001#16 = .ok (.addImm 15 0x01) ∧
    decode 0b1100001100001111#16 = .ok (.rnd 3 0x0F) := by
  decide

theorem test_decode_register_register :
    decode 0b0101001101000000#16 = .ok (.seReg 3 4) ∧ decode 0b1001001101000000#16 = .ok (.sneReg 3 4) ∧
    decode 0b1000000100100000#16 = .ok (.ldReg 1 2) ∧ decode 0b1000000100100001#16 = .ok (.or 1 2) ∧
    decode 0b1000000100100010#16 = .ok (.and 1 2) ∧ decode 0b1000000100100011#16 = .ok (.xor 1 2) ∧
    decode 0b1000000100100100#16 = .ok (.addReg 1 2) ∧ decode 0b1000000100100101#16 = .ok (.sub 1 2) ∧
    decode 0b1000000100100110#16 = .ok (.shr 1 2) ∧ decode 0b1000000100100111#16 = .ok (.subn 1 2) ∧
    decode 0b1000000100101110#16 = .ok (.shl 1 2) ∧ decode 0b1101000111110101#16 = .ok (.drw 1 15 5) := by
  decide

theorem test_decode_register_sub :
    decode 0b1110010110011110#16 = .ok (.skp 5) ∧ decode 0b1110010110100001#16 = .ok (.sknp 5) ∧
    decode 0b1111000100000111#16 = .ok (.ldVxDt 1) ∧ decode 0b1111001100001010#16 = .ok (.ldVxK 3) ∧
    decode 0b1111000000010101#16 = .ok (.ldDtVx 0) ∧ decode 0b1111000000011000#16 = .ok (.ldStVx 0) ∧
    decode 0b1111001000011110#16 = .ok (.addI 2) ∧ decode 0b1111101000101001#16 = .ok (.ldF 10) ∧
    decode 0b1111001100110011#16 = .ok (.ldB 3) ∧ decode 0b1111000101010101#16 = .ok (.stRegs 1) ∧
    decode 0b1111001001100101#16 = .ok (.ldRegs 2) := by
  decide

/-- X1, X5, X7, X10, X16, X18, X20, X23. -/
theorem test_decode_rejects_by_name :
    decode 0x0001#16 = .error (.illegalOpcode 0x0001#16) ∧
    decode 0x0EE0#16 = .error (.illegalOpcode 0x0EE0#16) ∧
    decode 0x5341#16 = .error (.illegalOpcode 0x5341#16) ∧
    decode 0x8128#16 = .error (.illegalOpcode 0x8128#16) ∧
    decode 0x812F#16 = .error (.illegalOpcode 0x812F#16) ∧
    decode 0xE1A0#16 = .error (.illegalOpcode 0xE1A0#16) ∧
    decode 0xF100#16 = .error (.illegalOpcode 0xF100#16) ∧
    decode 0xF11F#16 = .error (.illegalOpcode 0xF11F#16) := by
  decide

/-- The ROM bytes of program P2: high byte first (R52). -/
theorem test_encodeBytes : encodeBytes (.call 0x20A) ++ encodeBytes (.ldB 0) = [0x22, 0x0A, 0xF0, 0x33] := by
  decide

theorem test_decodeBytes_truncated : decodeBytes [0x12] = .error .truncated := by decide

theorem test_decodeTableWord :
    decodeTableWord 16 0x8126 = some (.shr 1 2) ∧ decodeTableWord 16 0x8128 = none := by decide

/-! ### One step, from the state B0 of 95_test_vectors.md section 0 -/

/-- B0 with the given settings, `I` and registers. -/
def startState (m : WrapMode) (d : Dialect) (i : Word) (regs : List (Reg × Byte)) : State :=
  (State.setRegs { State.construct m d defaultFont with powered := true } regs).setI i

/-- B0 with registers, under one setting of each. -/
def startRegs (regs : List (Reg × Byte)) : State := startState .wrap .cosmac 0 regs

/-- B0 with a word of program in memory at pc. -/
def atWord (pc : Word) (w : Word) : State := ((startRegs []).setPc pc).storeBytes pc.toNat (splitWord w)

/-- The step on a word placed at pc answers a next state that passes the check. -/
def after (word : Nat) (s : State) (check : State → Bool) : Bool :=
  match step (s.withFetchWord 16 word) with
  | .next t => check t
  | _ => false

/-- The keys with one of them down. -/
def oneKey (k : Reg) : Vector Bool 16 := Vector.set (Vector.replicate 16 false) k.val true

/-- T1. -/
theorem test_jp : after 0x1234 (startRegs []) (fun t => t.pc == 0x0234 && t.sp == 0) = true := by decide
/-- T4. -/
theorem test_call : after 0x220A ((startRegs []).setPc 0x0204)
    (fun t => t.pc == 0x020A && t.sp == 1 && t.stack[0] == 0x0206) = true := by decide
/-- T6. -/
theorem test_call_full : after 0x2300 { startRegs [] with sp := 16 }
    (fun t => t.pc == 0x0200 && t.sp == 16 && t.fault == some .stackOverflow) = true := by decide
/-- T10. -/
theorem test_ret : after 0x00EE { startRegs [] with sp := 16, stack := Vector.replicate 16 0x0ABC }
    (fun t => t.pc == 0x0ABC && t.sp == 15 && t.stack[15] == 0x0ABC) = true := by decide
/-- T9. -/
theorem test_ret_empty : after 0x00EE (startRegs [])
    (fun t => t.pc == 0x0200 && t.fault == some .stackUnderflow) = true := by decide
/-- T12: the sum is not reduced to 12 bits. -/
theorem test_jpV0 : after 0xBFFF (startRegs [(0, 0xFF)]) (fun t => t.pc == 0x10FE) = true := by decide
/-- T13: the offset is V0, not V2. -/
theorem test_jpV0_uses_V0 : after 0xB201 (startRegs [(0, 0x02), (2, 0x77)])
    (fun t => t.pc == 0x0203) = true := by decide
/-- T16. -/
theorem test_seImm : after 0x3FFF ((startRegs [(15, 0xFF)]).setPc 0x0FFC)
    (fun t => t.pc == 0x1000 && t.fault == none) = true := by decide
/-- T15. -/
theorem test_seImm_not : after 0x3100 (startRegs [(1, 0x01)]) (fun t => t.pc == 0x0202) = true := by decide
/-- T17. -/
theorem test_sneImm : after 0x4280 (startRegs [(2, 0x7F)]) (fun t => t.pc == 0x0204) = true := by decide
/-- T19. -/
theorem test_seReg : after 0x5340 (startRegs [(3, 0x10), (4, 0x10)])
    (fun t => t.pc == 0x0204) = true := by decide
/-- T24. -/
theorem test_sneReg : after 0x9770 (startRegs [(7, 0x99)]) (fun t => t.pc == 0x0202) = true := by decide
/-- A1. -/
theorem test_ldImm : after 0x6A2F (startRegs [])
    (fun t => t.reg 10 == 0x2F && t.pc == 0x0202) = true := by decide
/-- A5: no carry flag. -/
theorem test_addImm : after 0x7001 (startRegs [(0, 0xFF)])
    (fun t => t.reg 0 == 0 && t.reg 15 == 0) = true := by decide
/-- A7. -/
theorem test_ldReg : after 0x8120 (startRegs [(2, 0x33)])
    (fun t => t.reg 1 == 0x33 && t.reg 2 == 0x33) = true := by decide
/-- A9: VF untouched. -/
theorem test_or : after 0x8011 (startRegs [(0, 0x0F), (1, 0xF0), (15, 1)])
    (fun t => t.reg 0 == 0xFF && t.reg 15 == 1) = true := by decide
/-- A10. -/
theorem test_and : after 0x8012 (startRegs [(0, 0x3C), (1, 0x0F), (15, 1)])
    (fun t => t.reg 0 == 0x0C && t.reg 15 == 1) = true := by decide
/-- A11. -/
theorem test_xor : after 0x8013 (startRegs [(0, 0xFF), (1, 0x0F), (15, 1)])
    (fun t => t.reg 0 == 0xF0 && t.reg 15 == 1) = true := by decide
/-- A13, the source's S2. -/
theorem test_addReg : after 0x8124 (startRegs [(1, 0xFF), (2, 0x01)])
    (fun t => t.reg 1 == 0x00 && t.reg 15 == 1) = true := by decide
/-- A17: the flag is written last. -/
theorem test_addReg_into_VF : after 0x8F14 (startRegs [(15, 0xF0), (1, 0x20)])
    (fun t => t.reg 15 == 0x01) = true := by decide
/-- A21, the source's S3. -/
theorem test_sub : after 0x8125 (startRegs [(1, 0x03), (2, 0x05), (15, 1)])
    (fun t => t.reg 1 == 0xFE && t.reg 15 == 0) = true := by decide
/-- A22: equal operands do not borrow. -/
theorem test_sub_equal : after 0x8125 (startRegs [(1, 0x07), (2, 0x07)])
    (fun t => t.reg 1 == 0x00 && t.reg 15 == 1) = true := by decide
/-- A28. -/
theorem test_subn : after 0x8127 (startRegs [(1, 0x05), (2, 0x03), (15, 1)])
    (fun t => t.reg 1 == 0xFE && t.reg 15 == 0) = true := by decide
/-- A33. -/
theorem test_shr_schip : after 0x8126 (startState .wrap .schip 0 [(1, 0xFE), (2, 0x01), (15, 1)])
    (fun t => t.reg 1 == 0x7F && t.reg 15 == 0) = true := by decide
/-- A32, the source's S6. -/
theorem test_shr_cosmac : after 0x8126 (startState .wrap .cosmac 0 [(1, 0xAA), (2, 0x03)])
    (fun t => t.reg 1 == 0x01 && t.reg 15 == 1 && t.reg 2 == 0x03) = true := by decide
/-- A40. -/
theorem test_shl_schip : after 0x812E (startState .wrap .schip 0 [(1, 0x81), (2, 0x01)])
    (fun t => t.reg 1 == 0x02 && t.reg 15 == 1) = true := by decide
/-- A41. -/
theorem test_shl_cosmac : after 0x812E (startState .wrap .cosmac 0 [(1, 0x81), (2, 0x40), (15, 1)])
    (fun t => t.reg 1 == 0x80 && t.reg 15 == 0) = true := by decide
/-- A48: whatever byte is drawn. -/
theorem test_rnd_masks : ∃ t, exec (.rnd 3 0x00) (startRegs [(3, 0x55)]) = .next t ∧ t.reg 3 = 0 ∧
    t.draws = 1 := ⟨_, rfl, by simp, rfl⟩
/-- M2. -/
theorem test_ldI : after 0xAFFF (startState .wrap .cosmac 0x1234 [])
    (fun t => t.i == 0x0FFF) = true := by decide
/-- M5: I is not masked. -/
theorem test_addI : after 0xF21E (startState .wrap .cosmac 0x0FFF [(2, 0x01)])
    (fun t => t.i == 0x1000 && t.reg 15 == 1) = true := by decide
/-- M7: the flag is of the unreduced sum. -/
theorem test_addI_wraps : after 0xF21E (startState .wrap .cosmac 0xFFFF [(2, 0x02)])
    (fun t => t.i == 0x0001 && t.reg 15 == 1) = true := by decide
/-- M10: the byte is not masked. -/
theorem test_ldF : after 0xF029 (startRegs [(0, 0xFF)]) (fun t => t.i == 0x04FB) = true := by decide
/-- M14. -/
theorem test_ldB : after 0xF033 (startState .wrap .cosmac 0x0FFD [(0, 0xFF)])
    (fun t => t.byteAt 0xFFD == 2 && t.byteAt 0xFFE == 5 && t.byteAt 0xFFF == 5) = true := by decide
/-- M15: nothing is written before the fault. -/
theorem test_ldB_out_of_range : after 0xF033 (startState .wrap .cosmac 0x0FFE [(0, 0x63)])
    (fun t => t.fault == some (.memoryOutOfRange 0x1000) && t.byteAt 0xFFF == 0) = true := by decide
/-- M18. -/
theorem test_stRegs_schip : after 0xF155 (startState .wrap .schip 0x0400 [(0, 1), (1, 2), (2, 3)])
    (fun t => t.byteAt 0x400 == 1 && t.byteAt 0x401 == 2 && t.byteAt 0x402 == 0 && t.i == 0x0400)
      = true := by decide
/-- M20. -/
theorem test_stRegs_cosmac : after 0xF055 (startState .wrap .cosmac 0x0FFF [(0, 0xAB)])
    (fun t => t.byteAt 0xFFF == 0xAB && t.i == 0x1000 && t.fault == none) = true := by decide
/-- M27: the default font's first byte. -/
theorem test_ldRegs_cosmac : after 0xF065 (startState .wrap .cosmac 0 [])
    (fun t => t.reg 0 == 0xF0 && t.i == 0x0001) = true := by decide
/-- M26. -/
theorem test_ldRegs_out_of_range : after 0xF165 (startState .wrap .schip 0x0FFF [(0, 0x11)])
    (fun t => t.fault == some (.memoryOutOfRange 0x1000) && t.reg 0 == 0x11) = true := by decide
/-- DP1. -/
theorem test_cls : after 0x00E0 ((startRegs []).setPix (Display.set Display.blank (63, 31) true))
    (fun t => !t.pixel (63, 31) && t.redraw) = true := by decide
/-- DP6: wraps and collides. -/
theorem test_drw_wrap : after 0xD011 ((((startState .wrap .cosmac 0x0300 [(0, 0x3C), (1, 5)]).setByte
      0x300 0xFF).setPix (Display.set Display.blank (0, 5) true)))
    (fun t => t.pixel (60, 5) && !t.pixel (0, 5) && t.pixel (3, 5) && !t.pixel (4, 5) && t.reg 15 == 1)
      = true := by decide
/-- DP7: off-screen pixels are left out. -/
theorem test_drw_clip : after 0xD011 ((((startState .clip .cosmac 0x0300 [(0, 0x3C), (1, 5)]).setByte
      0x300 0xFF).setPix (Display.set Display.blank (0, 5) true)))
    (fun t => t.pixel (63, 5) && t.pixel (0, 5) && !t.pixel (1, 5) && t.reg 15 == 0 && t.redraw)
      = true := by decide
/-- K1. -/
theorem test_skp : after 0xE59E (setKeys (oneKey 10) (startRegs [(5, 0x0A)]))
    (fun t => t.pc == 0x0204) = true := by decide
/-- K6. -/
theorem test_skp_out_of_range : after 0xE59E (setKeys (oneKey 0) (startRegs [(5, 0x10)]))
    (fun t => t.pc == 0x0200 && t.fault == some (.keyIndexOutOfRange 0x10)) = true := by decide
/-- K5. -/
theorem test_sknp : after 0xE5A1 (setKeys (oneKey 10) (startRegs [(5, 0x0A)]))
    (fun t => t.pc == 0x0202) = true := by decide
/-- K14: the timers tick during the wait. -/
theorem test_ldVxK_waits : after 0xF30A (((startRegs [(3, 0x77)]).setDt 3).setSt 1)
    (fun t => t.pc == 0x0200 && t.reg 3 == 0x77 && t.dt == 2 && t.st == 0) = true := by decide
/-- K11: one key down leaves no choice. -/
theorem test_ldVxK_takes_the_key : ∃ t, exec (.ldVxK 3) (setKeys (oneKey 7) (startRegs [(3, 0x77)])) = .next t ∧
    t.reg 3 = 0x07 := by
  refine ⟨_, rfl, ?_⟩
  rw [State.reg_setPc, State.reg_setReg, if_pos rfl]
  exact congrArg keyNumber (State.drawKey_single _ 7)
/-- TM1. -/
theorem test_ldVxDt : after 0xF107 ((startRegs []).setDt 5)
    (fun t => t.reg 1 == 5 && t.dt == 4) = true := by decide
/-- TM7. -/
theorem test_ldDtVx : after 0xF015 (startRegs [(0, 0xFF)]) (fun t => t.dt == 0xFE) = true := by decide
/-- TM9: written 1, ticked to 0. -/
theorem test_ldStVx : after 0xF018 (startRegs [(0, 0x01)])
    (fun t => t.st == 0 && !t.sound) = true := by decide
/-- X1, the source's S9: no tick, pc and `REDRAW` as R177 says. -/
theorem test_illegal_word : after 0x0001 (((startRegs []).setDt 4).setRedraw true)
    (fun t => t.fault == some (.illegalOpcode 0x0001) && t.pc == 0x0200 && t.dt == 4 && !t.redraw)
      = true := by decide

/-- Y4. -/
theorem test_fetch_out_of_range : step ((startRegs []).setPc 0xFFFF) =
    .next (((startRegs []).setPc 0xFFFF).latch (.memoryOutOfRange 0xFFFF)).endOfStep := by rfl

/-! ### Reset, load, and the first instruction after reset -/

/-- Z1. -/
theorem test_reset : State.reset.pc = 0x0200 ∧ State.reset.sp = 0 ∧ State.reset.powered = false ∧
    State.reset.fault = none ∧ State.reset.byteAt 0 = 0xF0 ∧ State.reset.byteAt 0x04F = 0x80 ∧
    State.reset.byteAt 0x050 = 0 := by decide
/-- R195: configured after the load, and no longer after a step. -/
theorem test_configure_before_first_step :
    (∃ t u, loadRom [0x60, 0x11] State.reset = .next t ∧ configure .clip .schip t = .next u ∧
      u.wrapMode = .clip ∧ u.dialect = .schip ∧ u.powered = true) ∧
    (∃ t, step (atWord 0x200 0x6011) = .next t ∧ configure .clip .schip t = .refused .configureMidRun) :=
  ⟨⟨_, _, rfl, rfl, rfl, rfl, rfl⟩, _, rfl, rfl⟩
theorem test_reset_step_not_enabled : step State.reset = .refused .notPowered := by rfl
theorem test_reset_memory_canonical : Memory.wf State.reset.font State.reset.mem := by decide
/-- The word placed for the first step after reset is the one it runs. -/
theorem test_withFetchWord : after 0x6A2F State.reset
    (fun t => t.reg 10 == 0x2F && t.pc == 0x0202 && t.fault == none) = true := by decide
/-- Writing what an unlisted address reads as removes the cell. -/
theorem test_memory_write_removes :
    Memory.write defaultFont (Memory.write defaultFont [] 0x300 7) 0x300 0 = [] ∧
    Memory.write defaultFont [] 0x000 0xF0 = [] := by decide

/-! ### Witnesses: states and operands that meet each statement's hypotheses, at the ends of their ranges -/

theorem witness_DecodeInvertsEncode :
    (Instr.drw 15 0 15).WellFormed = true ∧ (Instr.drw 0 15 0).WellFormed = true ∧
    (Instr.jp 0xFFF).WellFormed = true := by decide
theorem witness_EncodeInvertsDecode : decode 0xD01F#16 = .ok (.drw 0 1 15) := by decide
theorem witness_WordSpellsInstructionIffRowMatches :
    decode 0x800E#16 = .ok (.shl 0 0) ∧
    ((0xF00F#16, 0x800E#16) ∈ opcodeRows ∧ 0x8FFE#16 &&& 0xF00F#16 = 0x800E#16) ∧
    (∀ row ∈ opcodeRows, 0x8008#16 &&& row.1 ≠ row.2) :=
  ⟨by decide, ⟨by decide, by decide⟩, fun row hr => by
    have h : opcodeRows.all (fun row => 0x8008#16 &&& row.1 ≠ row.2) = true := by decide
    simpa using List.all_eq_true.1 h row hr⟩
theorem witness_IllegalWordsByCategory :
    decode 0x0000#16 = .error (.illegalOpcode 0x0000#16) ∧
    decode 0x0FFF#16 = .error (.illegalOpcode 0x0FFF#16) ∧
    decode 0x500F#16 = .error (.illegalOpcode 0x500F#16) ∧
    decode 0x9FF1#16 = .error (.illegalOpcode 0x9FF1#16) ∧
    decode 0x8FFD#16 = .error (.illegalOpcode 0x8FFD#16) ∧
    decode 0xEFA2#16 = .error (.illegalOpcode 0xEFA2#16) ∧
    decode 0xFFFF#16 = .error (.illegalOpcode 0xFFFF#16) := by decide

/-- The last pc a word can be fetched from. -/
theorem witness_StepRunsDecodedInstruction :
    (atWord 0xFFE 0x6011).Enabled ∧ (atWord 0xFFE 0x6011).pc.toNat ≤ 0xFFE ∧
    (0x6011#16).toNat = ((atWord 0xFFE 0x6011).byteAt 0xFFE).toNat * 256 +
      ((atWord 0xFFE 0x6011).byteAt 0xFFF).toNat ∧
    decode 0x6011#16 = .ok (.ldImm 0 0x11) := by decide
theorem witness_StepOnIllegalWordLatchesIt :
    (atWord 0 0xF090).Enabled ∧ (atWord 0 0xF090).pc.toNat ≤ 0xFFE ∧
    (0xF090#16).toNat = ((atWord 0 0xF090).byteAt 0).toNat * 256 + ((atWord 0 0xF090).byteAt 1).toNat ∧
    ∀ i, decode 0xF090#16 ≠ .ok i :=
  ⟨by decide, by decide, by decide, fun i h => by
    rw [show decode 0xF090#16 = .error (.illegalOpcode 0xF090#16) by decide] at h
    cases h⟩
theorem witness_StepOnUnfetchablePcLatches :
    ((startRegs []).setPc 0xFFF).Enabled ∧ 0xFFE < ((startRegs []).setPc 0xFFF).pc.toNat := by decide
theorem witness_StepAnswersNextIffEnabled :
    (startRegs []).Enabled ∧ ¬ State.reset.Enabled := ⟨by decide, fun h => nomatch h.1⟩
theorem witness_RaisingStepIsPrecise :
    ∃ t, step (atWord 0x200 0x00EE) = .next t ∧ t.fault ≠ none := ⟨_, rfl, by decide⟩
theorem witness_HandlersRaiseExactlyTheirConditions :
    (∃ t, (startState .wrap .cosmac 0xFF1 []).fault = none ∧
      exec (.stRegs 15) (startState .wrap .cosmac 0xFF1 []) = .next t ∧ t.fault ≠ none) ∧
    (∃ t, exec (.stRegs 15) (startState .wrap .cosmac 0xFF0 []) = .next t ∧ t.fault = none) :=
  ⟨⟨_, rfl, rfl, by decide⟩, _, rfl, rfl⟩
theorem witness_RaisingHandlersChangeOnlyFault :
    (startRegs []).sp.val = 0 ∧ ({ startRegs [] with sp := 16 } : State).sp.val = 16 ∧
    15 < (startRegs [(0, 16)]).regNat 0 ∧
    (1 ≤ 1 ∧ 0xFFF < (startState .wrap .cosmac 0x1000 []).i.toNat + 1 - 1) ∧
    0xFFF < (startState .wrap .cosmac 0xFFE []).i.toNat + 2 ∧
    0xFFF < (startState .wrap .cosmac 0x1000 []).i.toNat + (0 : Reg).val := by decide
theorem witness_SafeStepIffWithinBounds :
    SafeStep (atWord 0x200 0x6011) ∧ ¬ SafeStep (atWord 0x200 0x00EE) :=
  ⟨⟨_, rfl, rfl⟩, fun ⟨_, h, hf⟩ => nomatch (Host.Outcome.next.inj h ▸ hf)⟩
theorem witness_TimersTickOncePerCompletedStep :
    (∃ t, step (atWord 0x200 0x6011) = .next t ∧ t.fault = none) ∧
    (∃ t, step (atWord 0x200 0x0000) = .next t ∧ t.fault ≠ none) :=
  ⟨⟨_, rfl, rfl⟩, _, rfl, by decide⟩
theorem witness_ParkedMachineCountsDown :
    (atWord 0x200 0x1200).Enabled ∧ (atWord 0x200 0x1200).Parked := ⟨by decide, 0x200, rfl, rfl⟩
theorem witness_StepKeepsSettingsAndInputs : ∃ t, step (atWord 0x200 0x6011) = .next t := ⟨_, rfl⟩

/-- The last free slot. -/
theorem witness_CallPushesReturnAddress : ({ startRegs [] with sp := 15 } : State).sp.val < 16 := by decide
/-- The last entry, and a full stack. -/
theorem witness_ReturnPopsIntoPc : ({ startRegs [] with sp := 1 } : State).sp.val ≠ 0 ∧
    ({ startRegs [] with sp := 16 } : State).sp.val ≠ 0 := by decide
theorem witness_CallThenReturnResumesAfterCall :
    ∃ t, exec (.call 0x300) { startRegs [] with sp := 15 } = .next t ∧ Part.stack.Same t (t.setPc 0xABC) :=
  ⟨_, rfl, rfl, fun _ => rfl⟩
theorem witness_StackTouchedOnlyByCallAndReturn :
    (∃ t, exec .ret { startRegs [] with sp := 1 } = .next t ∧ t.sp ≠ (1 : Fin 17)) ∧
    (∃ t, exec (.call 0x300) (startRegs []) = .next t ∧
      t.stack[(0 : Fin 16).val] ≠ (startRegs []).stack[(0 : Fin 16).val]) :=
  ⟨⟨_, rfl, by decide⟩, _, rfl, by decide⟩
theorem witness_VfWrittenOnlyAsFlagOrDestination :
    ∃ t, exec (.addReg 1 2) (startRegs [(1, 0xFF), (2, 1)]) = .next t ∧
      t.reg 15 ≠ (startRegs [(1, 0xFF), (2, 1)]).reg 15 ∧ (Instr.addReg 1 2).writesFlag = true ∧
      (startRegs [(1, 0xFF), (2, 1)]).fault = none ∧ t.fault = none := ⟨_, rfl, by decide, rfl, rfl, rfl⟩
theorem witness_RegistersChangeOnlyAsDestinations :
    (∃ t, exec (.addImm 0 1) (startRegs []) = .next t ∧ t.reg 0 ≠ (startRegs []).reg 0) ∧
    (∃ t, exec (.ldRegs 15) (startRegs []) = .next t ∧ t.reg 15 ≠ (startRegs []).reg 15) :=
  ⟨⟨_, rfl, by decide⟩, _, rfl, by decide⟩
theorem witness_ShiftsOfTheDialectsSource :
    (0xFF : Nat) = (if (startState .wrap .schip 0 [(1, 0xFF)]).dialect = .schip then
      (startState .wrap .schip 0 [(1, 0xFF)]).regNat 1 else (startState .wrap .schip 0 []).regNat 2) := by
  decide
theorem witness_SkipsOnRegister : (15 : BitVec 4) ≠ 0 ∧ (1 : BitVec 4) ≠ 0 := by decide

/-- The highest index registers from which a transfer is in range, here and in the three below. -/
theorem witness_StoreDecimalDigits : (startState .wrap .cosmac 0xFFD []).i.toNat + 2 ≤ 0xFFF := by decide
theorem witness_StoreRegisters :
    (startState .wrap .cosmac 0xFF0 []).i.toNat + (15 : Reg).val ≤ 0xFFF ∧ (15 : Reg) ≤ 15 := by decide
theorem witness_LoadRegisters :
    (startState .wrap .cosmac 0xFFF []).i.toNat + (0 : Reg).val ≤ 0xFFF ∧ (0 : Reg) ≤ 0 ∧ (0 : Reg) < 1 := by
  decide
theorem witness_StoreThenLoadRestoresRegisters :
    ∃ t, exec (.stRegs 15) (startState .wrap .cosmac 0xFF0 [(3, 7)]) = .next t ∧
      Part.memory.Same t (t.setI 0xFF0) ∧ (t.setI 0xFF0).i = (startState .wrap .cosmac 0xFF0 [(3, 7)]).i := by
  obtain ⟨t, e, -⟩ := exec_frame (.stRegs 15) (startState .wrap .cosmac 0xFF0 [(3, 7)])
  exact ⟨t, e, fun _ => rfl, rfl⟩
/-- A memory that agrees on the fetched word, or on the window read, and differs elsewhere. -/
theorem witness_MemoryReachedOnlyThroughWindows :
    (Memory.read defaultFont [(0x200, 7)] (startRegs []).pc.toNat = 7 ∧
      ((startRegs []).setByte 0x200 7).byteAt 0x200 = 7 ∧
      Memory.read defaultFont [(0x200, 7), (0x300, 9)] 0x201 =
        ((startRegs []).setByte 0x200 7).byteAt 0x201) ∧
    (∃ t, exec (.ldRegs 0) (startRegs []) = .next t) ∧
    (∀ a, (readWindow (.ldRegs 0) (startRegs [])).1 ≤ a →
      a < (readWindow (.ldRegs 0) (startRegs [])).1 + (readWindow (.ldRegs 0) (startRegs [])).2 →
      Memory.read defaultFont [(0x300, 9)] a = (startRegs []).byteAt a) :=
  ⟨by decide, ⟨_, rfl⟩, fun a _ h => by
    rw [show (readWindow (.ldRegs 0) (startRegs [])).1 + (readWindow (.ldRegs 0) (startRegs [])).2 = 1 by
      decide] at h
    obtain rfl : a = 0 := by omega
    decide⟩
theorem witness_CanonicalMemoriesReadAlikeAreEqual :
    Memory.wf defaultFont [(0x200, 0x12), (0xFFF, 0x01)] := by decide
theorem witness_DrawSpritePixelByPixel :
    (15 < 16) ∧ (startState .wrap .cosmac 0xFF1 []).i.toNat + 15 - 1 ≤ 0xFFF ∧ ((0 : Nat) = 0 ∨ (startState .wrap .cosmac 0xFFFF []).i.toNat + 0 - 1 ≤ 0xFFF) ∧
    (startState .wrap .cosmac 0 []).DrawsOn 0 1 1 (3, 0) ∧ ¬ (startState .clip .cosmac 0 []).DrawsOn 0 1 0 (3, 0) :=
  ⟨by decide, by decide, .inl rfl, ⟨0, 3, by decide, by decide, by decide, by decide, by decide⟩,
    fun ⟨_, _, h, _⟩ => absurd h (Nat.not_lt_zero _)⟩
theorem witness_DrawTwiceRestoresDisplay :
    ∃ t, exec (.drw 0 1 15) (startState .wrap .cosmac 0xFF1 [(0, 63), (1, 31)]) = .next t ∧
      t.regNat 0 % 64 = 63 ∧ t.regNat 1 % 32 = 31 := ⟨_, rfl, by decide, by decide⟩
theorem witness_RedrawMarksDisplayInstructions :
    (∃ t, step (atWord 0x200 0x00E0) = .next t ∧ t.redraw = true) ∧
    (∃ t, step (atWord 0x200 0x6011) = .next t ∧ t.redraw = false) ∧
    (∃ t, loadRom [0x12, 0x00] State.reset = .next t) := ⟨⟨_, rfl, rfl⟩, ⟨_, rfl, rfl⟩, _, rfl⟩
theorem witness_SkipsOnKey :
    (startRegs [(5, 15)]).regNat 5 = (15 : Reg).val ∧ (startRegs [(5, 0)]).regNat 5 = (0 : Reg).val := by
  decide
theorem witness_WaitForKey :
    (∀ k, (startRegs []).keyDown k = false) ∧ (∃ k, (setKeys (oneKey 15) (startRegs [])).keyDown k = true) :=
  ⟨by decide, 15, by decide⟩
theorem witness_LoadDelay : (atWord 0x200 0xF107).Enabled ∧
    (atWord 0x200 0xF107).fetchInstr = .ok (.ldVxDt 1) := ⟨by decide, rfl⟩
theorem witness_SetTimers :
    ((atWord 0x200 0xF015).Enabled ∧ (atWord 0x200 0xF015).fetchInstr = .ok (.ldDtVx 0)) ∧
    ((atWord 0x200 0xFF18).Enabled ∧ (atWord 0x200 0xFF18).fetchInstr = .ok (.ldStVx 15)) :=
  ⟨⟨by decide, rfl⟩, by decide, rfl⟩
theorem witness_SettingsReadOnlyWhereSaid :
    (∀ x y n, Instr.shr 0 1 ≠ .drw x y n) ∧ (∃ t, exec (.shr 0 1) (startRegs []) = .next t) ∧
    (∀ x y, Instr.drw 0 1 5 ≠ .shr x y ∧ Instr.drw 0 1 5 ≠ .shl x y ∧ Instr.drw 0 1 5 ≠ .stRegs x ∧
      Instr.drw 0 1 5 ≠ .ldRegs x) ∧ (∃ t, exec (.drw 0 1 5) (startRegs []) = .next t) :=
  ⟨fun _ _ _ h => (nomatch h), ⟨_, rfl⟩,
    fun _ _ => ⟨fun h => (nomatch h), fun h => (nomatch h), fun h => (nomatch h), fun h => (nomatch h)⟩, _, rfl⟩
theorem witness_LoadRomPlacesProgram :
    (List.replicate 3584 (1 : Byte)).length ≤ 3584 ∧ 3584 < (List.replicate 3585 (1 : Byte)).length ∧
    ([] : List Byte).length ≤ 3584 := by simp only [List.length_replicate]; decide
theorem witness_SetKeysReplacesSnapshot :
    ∃ t, loadRom [0x12, 0x00] (setKeys (oneKey 3) State.reset) = .next t := ⟨_, rfl⟩
/-- Right after a load no step has been taken; after one, also one that raised, one has. -/
theorem witness_ConfigureOnlyBeforeFirstStep :
    (∃ t, loadRom [0x12, 0x00] State.reset = .next t ∧ t.stepped = false) ∧
    (∃ t, step (atWord 0x200 0x6011) = .next t ∧ t.stepped = true) ∧
    (∃ t, step (atWord 0x200 0x0000) = .next t ∧ t.stepped = true) := ⟨⟨_, rfl, rfl⟩, ⟨_, rfl, rfl⟩, _, rfl, rfl⟩
/-- The invariant holds of a state with memory listed, and of states that a step latches a condition in: an
instruction's own and one that reaches out of memory. -/
theorem witness_StepKeepsInv :
    (atWord 0x200 0x6011).Inv ∧ (∃ t, step (atWord 0x200 0x6011) = .next t) ∧
    (∃ t, step (atWord 0x200 0x00EE) = .next t ∧ t.fault = some .stackUnderflow ∧ t.Inv) ∧
    (∃ t, step ((atWord 0x200 0xF033).setI 0xFFE) = .next t ∧ t.fault = some (.memoryOutOfRange 0x1000) ∧ t.Inv) :=
  ⟨⟨by decide, trivial, by decide, by decide, by decide⟩, ⟨_, rfl⟩,
    ⟨_, rfl, rfl, by decide, ⟨rfl, rfl⟩, by decide, by decide, by decide⟩,
    ⟨_, rfl, rfl, by decide, .inr ⟨.ldB 0, rfl, 3, .inr rfl, by decide, by decide, rfl⟩,
      by decide, by decide, by decide⟩⟩
theorem witness_HostMovesKeepInv :
    (startRegs []).Inv ∧ (∃ t, hostMove .reset (startRegs []) = .next t) ∧
    (∃ t, hostMove (.configure .clip .schip) State.reset = .next t) ∧
    (∃ t, hostMove (.loadRom [0x12, 0x00]) (startRegs []) = .next t) :=
  ⟨⟨by decide, trivial, by decide, by decide, by decide⟩, ⟨_, rfl⟩, ⟨_, rfl⟩, _, rfl⟩

end Sys2Proof.Tests
end

section
/-! SUPPORT. Memory replaced under a state: every operation that does not write memory commutes with it, as
far as the bytes it reads stay the same (20_memory.md R61). -/

namespace Sys2Proof.Machine

/-- The state with another memory, and everything else the same. -/
def State.setMem (s : State) (m : Memory) : State := { s with mem := m }

/-- What an instruction answered, with another memory in its next state. -/
def Result.setMem (m : Memory) : Result → Result
  | .next t => .next (t.setMem m)
  | .fault f => .fault f
  | .refused r => .refused r

@[simp] theorem Result.setMem_next (m : Memory) (t : State) :
    Result.setMem m (.next t) = .next (t.setMem m) := rfl

theorem unchanged_setMem (s : State) (m : Memory) : UnchangedExcept [.memory] s (s.setMem m) := by
  intro p hp
  cases p <;> simp [Part.Same, State.setMem, State.reg, State.pixel, State.keyDown] at hp ⊢

/-! ### What memory takes no part in -/

@[simp] theorem State.reg_setMem (s : State) (m : Memory) : (s.setMem m).reg = s.reg := rfl
@[simp] theorem State.base_setMem (s : State) (m : Memory) : (s.setMem m).base = s.base := rfl
@[simp] theorem State.setMem_pc (s : State) (m : Memory) : (s.setMem m).pc = s.pc := rfl
@[simp] theorem State.keyDown_setMem (s : State) (m : Memory) : (s.setMem m).keyDown = s.keyDown := rfl
@[simp] theorem State.keysDown_setMem (s : State) (m : Memory) : (s.setMem m).keysDown = s.keysDown := rfl
@[simp] theorem State.indexAfterTransfer_setMem (s : State) (m : Memory) (x : Reg) :
    (s.setMem m).indexAfterTransfer x = s.indexAfterTransfer x := rfl

@[simp] theorem State.latch_setMem (s : State) (m : Memory) (c : Condition) :
    (s.setMem m).latch c = (s.latch c).setMem m := rfl
@[simp] theorem State.setPc_setMem (s : State) (m : Memory) (w : Word) :
    (s.setMem m).setPc w = (s.setPc w).setMem m := rfl
@[simp] theorem State.setI_setMem (s : State) (m : Memory) (w : Word) :
    (s.setMem m).setI w = (s.setI w).setMem m := rfl

@[simp] theorem State.setRegs_setMem (s : State) (m : Memory) (l : List (Reg × Byte)) :
    (s.setMem m).setRegs l = (s.setRegs l).setMem m := by
  induction l generalizing s with
  | nil => rfl
  | cons p l ih => exact ih (s.setReg p.1 p.2)

theorem State.push_setMem (s : State) (m : Memory) (w : Word) :
    (s.setMem m).push w = (s.push w).map (·.setMem m) := by
  by_cases h : s.sp.val < 16 <;> simp [State.push, State.setMem, h, Except.map]

theorem State.pop_setMem (s : State) (m : Memory) :
    (s.setMem m).pop = s.pop.map fun p => (p.1, p.2.setMem m) := by
  by_cases h : s.sp.val = 0 <;> simp [State.pop, State.setMem, h, Except.map]

/-! ### Memory transfers -/

/-- A read of bytes depends on the bytes of its window alone (20_memory.md R55, R61). -/
theorem State.readBytes_setMem {s : State} {m : Memory} {base len : Nat}
    (h : ∀ a, base ≤ a → a < base + len → (s.setMem m).byteAt a = s.byteAt a) :
    (s.setMem m).readBytes base len = s.readBytes base len := by
  have hl : (s.setMem m).loadBytes base len = s.loadBytes base len := by
    rw [State.loadBytes_eq, State.loadBytes_eq]
    exact List.map_congr_left fun k hk => h (base + k) (by omega) (by have := List.mem_range.1 hk; omega)
  simp only [State.readBytes, hl]

/-- Whether a write of bytes raises does not depend on memory, nor what it does to the rest of the state. -/
theorem State.writeBytes_setMem (s : State) (m : Memory) (base : Nat) (bs : List Byte) :
    (∃ c, s.writeBytes base bs = .error c ∧ (s.setMem m).writeBytes base bs = .error c) ∨
    ∃ t m', s.writeBytes base bs = .ok t ∧ (s.setMem m).writeBytes base bs = .ok (t.setMem m') := by
  cases h : rangeFault base bs.length with
  | some c => exact .inl ⟨c, by simp only [State.writeBytes, h], by simp only [State.writeBytes, h]⟩
  | none =>
    have hs : (s.setMem m).storeBytes base bs =
        (s.storeBytes base bs).setMem ((s.setMem m).storeBytes base bs).mem := by
      rw [State.storeBytes_eq s]; exact State.storeBytes_eq _ _ _
    exact .inr ⟨_, _, by simp only [State.writeBytes, h]; rfl, by simp only [State.writeBytes, h]; rw [hs]⟩

theorem State.bytesUnchangedOutside_storeBytes (s : State) (base : Nat) (bs : List Byte) :
    BytesUnchangedOutside base bs.length s (s.storeBytes base bs) := fun a ha => by
  rw [State.byteAt_storeBytes, if_neg ha]

/-! ### The fetch and the instructions -/

/-- The fetch depends on the two bytes at pc alone (20_memory.md R61). -/
theorem State.fetchInstr_setMem {s : State} {m : Memory}
    (h0 : (s.setMem m).byteAt s.pc.toNat = s.byteAt s.pc.toNat)
    (h1 : (s.setMem m).byteAt (s.pc.toNat + 1) = s.byteAt (s.pc.toNat + 1)) :
    (s.setMem m).fetchInstr = s.fetchInstr := by
  have hr : (s.setMem m).readBytes s.pc.toNat 2 = s.readBytes s.pc.toNat 2 :=
    State.readBytes_setMem fun a hlo hhi => by
      obtain rfl | rfl : a = s.pc.toNat ∨ a = s.pc.toNat + 1 := by omega
      · exact h0
      · exact h1
  simp only [State.fetchInstr, State.setMem_pc, hr]

/-- Under a memory that agrees on the bytes it reads, an instruction answers the same but for memory
(20_memory.md R61). -/
theorem exec_setMem (i : Instr) (s : State) (m : Memory)
    (hw : ∀ a, (readWindow i s).1 ≤ a → a < (readWindow i s).1 + (readWindow i s).2 →
      (s.setMem m).byteAt a = s.byteAt a) :
    ∃ m', exec i (s.setMem m) = Result.setMem m' (exec i s) := by
  cases i with
  | cls | jp nnn | seImm x nn | sneImm x nn | seReg x y | ldImm x nn | addImm x nn | ldReg x y | or x y
  | and x y | xor x y | addReg x y | sub x y | shr x y | subn x y | shl x y | sneReg x y | ldI nnn
  | jpV0 nnn | rnd x nn | ldVxDt x | ldDtVx x | ldStVx x | addI x | ldF x => exact ⟨m, rfl⟩
  | ret =>
    refine ⟨m, ?_⟩
    simp only [exec, execRet, State.pop_setMem]
    cases s.pop <;> rfl
  | call nnn =>
    refine ⟨m, ?_⟩
    simp only [exec, execCall, State.setMem_pc, State.push_setMem]
    cases s.push (s.pc + 2) <;> rfl
  | skp x =>
    rcases keyOperand_cases (s.reg x) with ⟨_, e⟩ | ⟨_, e⟩ <;> exact ⟨m, by simp [exec, execSkp, e]⟩
  | sknp x =>
    rcases keyOperand_cases (s.reg x) with ⟨_, e⟩ | ⟨_, e⟩ <;> exact ⟨m, by simp [exec, execSknp, e]⟩
  | ldVxK x =>
    refine ⟨m, ?_⟩
    cases h : s.keysDown <;> simp only [exec, execLdVxK, State.keysDown_setMem, h] <;> rfl
  | drw x y n =>
    have hr : (s.setMem m).readBytes s.base n = s.readBytes s.base n := State.readBytes_setMem hw
    refine ⟨m, ?_⟩
    simp only [exec, execDrw, State.base_setMem, hr]
    cases s.readBytes s.base n <;> rfl
  | ldRegs x =>
    have hr : (s.setMem m).readBytes s.base (x.val + 1) = s.readBytes s.base (x.val + 1) :=
      State.readBytes_setMem hw
    refine ⟨m, ?_⟩
    simp only [exec, execLdRegs, State.base_setMem, hr]
    cases s.readBytes s.base (x.val + 1) <;> simp
  | ldB x =>
    rcases s.writeBytes_setMem m s.base (bcdDigits (s.reg x)) with ⟨_, e, e'⟩ | ⟨_, m', e, e'⟩
    · exact ⟨m, by simp [exec, execLdB, e, e']⟩
    · exact ⟨m', by simp [exec, execLdB, e, e']⟩
  | stRegs x =>
    rcases s.writeBytes_setMem m s.base ((regsUpTo x).map s.reg) with ⟨_, e, e'⟩ | ⟨_, m', e, e'⟩
    · exact ⟨m, by simp [exec, execStRegs, e, e']⟩
    · exact ⟨m', by simp [exec, execStRegs, e, e']⟩

/-- An instruction leaves every byte outside its written window as before (20_memory.md R61). -/
theorem exec_bytesUnchangedOutside {i : Instr} {s t : State} (h : exec i s = .next t) :
    BytesUnchangedOutside (writeWindow i s).1 (writeWindow i s).2 s t := by
  intro a ha
  cases i with
  | ldB x =>
    rcases execLdB_cases x s with ⟨_, e⟩ | ⟨_, e⟩ <;> cases Host.Outcome.next.inj (e.symm.trans h)
    · rfl
    · exact s.bytesUnchangedOutside_storeBytes s.base (bcdDigits (s.reg x)) a ha
  | stRegs x =>
    rcases execStRegs_cases x s with ⟨_, e⟩ | ⟨_, e⟩ <;> cases Host.Outcome.next.inj (e.symm.trans h)
    · rfl
    · exact s.bytesUnchangedOutside_storeBytes s.base ((regsUpTo x).map s.reg) a
        (by simpa [writeWindow] using ha)
  | _ => exact exec_unchanged h .memory (by simp [partsOf]) a

/-- Settles O42: the fetch and the two data reads go through `readBytes`, which sees its window only, and
the two stores through `storeBytes`, which writes its window only. -/
theorem memoryReachedOnlyThroughWindows : Obligations.MemoryReachedOnlyThroughWindows := by
  unfold Obligations.MemoryReachedOnlyThroughWindows
  refine ⟨fun s m h0 h1 => State.fetchInstr_setMem h0 h1, ?_, fun i s t h => exec_bytesUnchangedOutside h⟩
  intro i s t m h hw
  obtain ⟨m', e⟩ := exec_setMem i s m hw
  rw [h] at e
  exact ⟨t.setMem m', e, unchanged_setMem t m'⟩

end Sys2Proof.Machine
end

section
/-! SUPPORT. The rows of the opcode map against the decoder: what matching a mask says of a word's fields,
and that matching an instruction's row is decoding to an instruction of that row (30_encoding.md R74, R76). -/

namespace Sys2Proof

/-- The word lies in the instruction's row of the opcode map: `w & mask = match` (30_encoding.md R74). -/
def InRowOf (i : Instr) (w : Word) : Prop := w &&& (opcodeRow i).1 = (opcodeRow i).2

/-! ### What each of the four masks of R74 compares -/

/-- Mask F000 compares the category. -/
theorem and_F000_eq_iff (w m : Word) :
    w &&& 0xF000#16 = m ↔ fieldC w = m.toNat / 0x1000 ∧ m.toNat % 0x1000 = 0 := by
  rw [← BitVec.toNat_inj, and_F000_toNat, fieldC_eq]
  omega

/-- Mask F00F compares the category and the low nibble. -/
theorem and_F00F_eq_iff (w m : Word) :
    w &&& 0xF00F#16 = m ↔
      (fieldC w = m.toNat / 0x1000 ∧ fieldN w = m.toNat % 16) ∧ m.toNat / 16 % 256 = 0 := by
  rw [← BitVec.toNat_inj, and_F00F_toNat, fieldC_eq, fieldN_eq]
  omega

/-- Mask F0FF compares the category and the low byte. -/
theorem and_F0FF_eq_iff (w m : Word) :
    w &&& 0xF0FF#16 = m ↔
      (fieldC w = m.toNat / 0x1000 ∧ fieldNN w = m.setWidth 8) ∧ m.toNat / 256 % 16 = 0 := by
  rw [← BitVec.toNat_inj, and_F0FF_toNat, fieldC_eq, ← BitVec.toNat_inj, fieldNN_toNat,
    BitVec.toNat_setWidth]
  omega

/-- Mask FFFF compares the whole word. -/
theorem and_FFFF (w : Word) : w &&& 0xFFFF#16 = w := BitVec.and_allOnes

/-! ### The map lists the instructions' rows -/

theorem opcodeRow_mem (i : Instr) : opcodeRow i ∈ opcodeRows := by
  cases i <;> exact List.mem_of_elem_eq_true rfl

/-- One instruction of each row, in the table's order. -/
def rowInstrs : List Instr :=
  [.cls, .ret, .jp 0, .call 0, .seImm 0 0, .sneImm 0 0, .seReg 0 0, .ldImm 0 0, .addImm 0 0, .ldReg 0 0,
   .or 0 0, .and 0 0, .xor 0 0, .addReg 0 0, .sub 0 0, .shr 0 0, .subn 0 0, .shl 0 0, .sneReg 0 0, .ldI 0,
   .jpV0 0, .rnd 0 0, .drw 0 0 0, .skp 0, .sknp 0, .ldVxDt 0, .ldVxK 0, .ldDtVx 0, .ldStVx 0, .addI 0,
   .ldF 0, .ldB 0, .stRegs 0, .ldRegs 0]

theorem map_opcodeRow_rowInstrs : rowInstrs.map opcodeRow = opcodeRows := rfl

theorem exists_opcodeRow_eq {row : Word × Word} (h : row ∈ opcodeRows) : ∃ i, opcodeRow i = row := by
  rw [← map_opcodeRow_rowInstrs] at h
  obtain ⟨i, -, hi⟩ := List.mem_map.1 h
  exact ⟨i, hi⟩

/-! ### Decoding and the rows -/

/-- A word lies in the row of what it decodes to (30_encoding.md R74): the fields the decoder compared are
the ones the row's mask keeps. -/
theorem inRowOf_of_decode {w : Word} {i : Instr} (h : decode w = .ok i) : InRowOf i w := by
  unfold decode decodeCat0 decodeCat8 decodeCatE decodeCatF at h
  repeat' split at h
  all_goals cases h
  all_goals simp [InRowOf, opcodeRow, and_FFFF, and_F000_eq_iff, and_F00F_eq_iff, and_F0FF_eq_iff, *]

/-- A word in an instruction's row decodes to an instruction of that row (30_encoding.md R76). -/
theorem decode_of_inRowOf {w : Word} {i : Instr} (h : InRowOf i w) :
    ∃ j, decode w = .ok j ∧ opcodeRow j = opcodeRow i := by
  unfold InRowOf at h
  cases i with
  | cls | ret =>
    obtain rfl := (and_FFFF w).symm.trans h
    exact ⟨_, rfl, rfl⟩
  | jp nnn | call nnn | seImm x nn | sneImm x nn | ldImm x nn | addImm x nn | ldI nnn | jpV0 nnn | rnd x nn
  | drw x y n =>
    obtain ⟨hC, -⟩ := (and_F000_eq_iff w _).1 h
    simp [decode, hC, opcodeRow]
  | seReg x y | sneReg x y =>
    obtain ⟨⟨hC, hN⟩, -⟩ := (and_F00F_eq_iff w _).1 h
    simp [decode, hC, hN, opcodeRow]
  | ldReg x y | or x y | and x y | xor x y | addReg x y | sub x y | shr x y | subn x y | shl x y =>
    obtain ⟨⟨hC, hN⟩, -⟩ := (and_F00F_eq_iff w _).1 h
    simp [decode, hC, decodeCat8, hN, opcodeRow]
  | skp x | sknp x =>
    obtain ⟨⟨hC, hNN⟩, -⟩ := (and_F0FF_eq_iff w _).1 h
    simp [decode, hC, decodeCatE, hNN, opcodeRow]
  | ldVxDt x | ldVxK x | ldDtVx x | ldStVx x | addI x | ldF x | ldB x | stRegs x | ldRegs x =>
    obtain ⟨⟨hC, hNN⟩, -⟩ := (and_F0FF_eq_iff w _).1 h
    simp [decode, hC, decodeCatF, hNN, opcodeRow]

/-- Settles O3: the decoder compares the fields that the masks keep, so a word decodes to an instruction of
a row exactly if it lies in that row, and a word in no row can only be rejected. -/
theorem wordSpellsInstructionIffRowMatches : Obligations.WordSpellsInstructionIffRowMatches := by
  unfold Obligations.WordSpellsInstructionIffRowMatches
  refine ⟨rfl, by decide, fun w i h => ⟨opcodeRow_mem i, inRowOf_of_decode h⟩, ?_, ?_⟩
  · intro w row hrow hw
    obtain ⟨i, rfl⟩ := exists_opcodeRow_eq hrow
    exact decode_of_inRowOf hw
  · intro w hno
    cases hd : decode w with
    | ok i => exact absurd (inRowOf_of_decode hd) (hno _ (opcodeRow_mem i))
    | error e => rw [decode_error hd]

end Sys2Proof
end

section
/-! SUPPORT. The two jumps and the two skips on an immediate byte: what their words decode to, and that each
answers the state with a new pc and nothing else changed (41_control_flow.md R102, R104 to R106). -/

namespace Sys2Proof.Machine

/-! ### The words `1NNN`, `BNNN`, `3XNN`, `4XNN` (30_encoding.md R74) -/

theorem decode_word1NNN (nnn : Addr12) : decode (wordCNNN 0x1 nnn) = .ok (.jp nnn) := by
  obtain ⟨hC, hNNN⟩ := fields_wordCNNN 0x1#4 nnn
  simp [decode, hC, hNNN]

theorem decode_wordBNNN (nnn : Addr12) : decode (wordCNNN 0xB nnn) = .ok (.jpV0 nnn) := by
  obtain ⟨hC, hNNN⟩ := fields_wordCNNN 0xB#4 nnn
  simp [decode, hC, hNNN]

theorem decode_word3XNN (x : Reg) (nn : Byte) : decode (wordCXNN 0x3 x nn) = .ok (.seImm x nn) := by
  obtain ⟨hC, hX, hNN⟩ := fields_wordCXNN 0x3#4 x nn
  simp [decode, hC, hX, hNN]

theorem decode_word4XNN (x : Reg) (nn : Byte) : decode (wordCXNN 0x4 x nn) = .ok (.sneImm x nn) := by
  obtain ⟨hC, hX, hNN⟩ := fields_wordCXNN 0x4#4 x nn
  simp [decode, hC, hX, hNN]

/-! ### What the instructions answer -/

/-- A completion without advance leaves the pc that the handler has put there (40_cycle.md R94). -/
theorem complete_stay_setPc (s : State) (w : Word) : complete .stay (s.setPc w) = .next (s.setPc w) := by
  simp [State.setPc]

theorem exec_jp (nnn : Addr12) (s : State) : exec (.jp nnn) s = .next (s.setPc (addrOperand nnn)) :=
  complete_stay_setPc s _

theorem exec_jpV0 (nnn : Addr12) (s : State) :
    exec (.jpV0 nnn) s = .next (s.setPc (addrOperand nnn + zext16 (s.reg 0))) :=
  complete_stay_setPc s _

theorem exec_seImm (x : Reg) (nn : Byte) (s : State) :
    exec (.seImm x nn) s = .next (s.setPc (s.pc + if s.reg x = nn then 4 else 2)) := by
  simp [exec, execSeImm]

theorem exec_sneImm (x : Reg) (nn : Byte) (s : State) :
    exec (.sneImm x nn) s = .next (s.setPc (s.pc + if s.reg x = nn then 2 else 4)) := by
  simp [exec, execSneImm]

/-! ### The targets as numbers -/

theorem addrOperand_toNat (nnn : Addr12) : (addrOperand nnn).toNat = nnn.toNat := by
  have := nnn.isLt
  rw [addrOperand, BitVec.toNat_setWidth]
  omega

/-- The target of `BNNN` is at most 0xFFF + 0xFF, so the 16-bit sum does not wrap (R104). -/
theorem addrOperand_add_zext16_toNat (nnn : Addr12) (b : Byte) :
    (addrOperand nnn + zext16 b).toNat = nnn.toNat + b.toNat := by
  have := nnn.isLt
  have := b.isLt
  rw [BitVec.toNat_add, addrOperand_toNat, BitVec.toNat_setWidth]
  omega

/-! ### The obligations -/

/-- Settles O17: the handler puts the zero-extended NNN into pc and the completion adds nothing. -/
theorem jump : Obligations.Jump := by
  unfold Obligations.Jump
  exact fun nnn s =>
    ⟨decode_word1NNN nnn, _, exec_jp nnn s, addrOperand_toNat nnn, unchanged_setPc s _⟩

/-- Settles O18: the sum of the operand and V0 fits pc, whatever the settings. -/
theorem jumpPlusV0 : Obligations.JumpPlusV0 := by
  unfold Obligations.JumpPlusV0
  exact fun nnn s =>
    ⟨decode_wordBNNN nnn, _, exec_jpV0 nnn s, addrOperand_add_zext16_toNat nnn (s.reg 0), unchanged_setPc s _⟩

/-- Settles O22: both skips compare the same two bytes, and only pc takes the advance. -/
theorem skipsOnImmediate : Obligations.SkipsOnImmediate := by
  unfold Obligations.SkipsOnImmediate
  intro x nn s
  simp only [BitVec.toNat_inj]
  exact ⟨decode_word3XNN x nn, decode_word4XNN x nn,
    ⟨_, exec_seImm x nn s, rfl, unchanged_setPc s _⟩,
    ⟨_, exec_sneImm x nn s, rfl, unchanged_setPc s _⟩⟩

end Sys2Proof.Machine
end

section
/-! SUPPORT. The instructions that put one byte into `V[X]` and write no flag: what their words decode to, and
the one transition they share (42_alu.md R121 to R126). -/

namespace Sys2Proof.Machine

/-! ### The words `6XNN`, `7XNN`, `8XY0` to `8XY3` (30_encoding.md R74) -/

theorem decode_word6XNN (x : Reg) (nn : Byte) : decode (wordCXNN 0x6 x nn) = .ok (.ldImm x nn) := by
  obtain ⟨hC, hX, hNN⟩ := fields_wordCXNN 0x6#4 x nn
  simp [decode, hC, hX, hNN]

theorem decode_word7XNN (x : Reg) (nn : Byte) : decode (wordCXNN 0x7 x nn) = .ok (.addImm x nn) := by
  obtain ⟨hC, hX, hNN⟩ := fields_wordCXNN 0x7#4 x nn
  simp [decode, hC, hX, hNN]

/-- A word of category 8 is decoded by its sub-opcode (R78). -/
theorem decode_word8XYN (x y : Reg) (n : BitVec 4) :
    decode (wordCXYN 0x8#4 x y n) = decodeCat8 (wordCXYN 0x8#4 x y n) := by
  obtain ⟨hC, _⟩ := fields_wordCXYN 0x8#4 x y n
  simp [decode, hC]

theorem decode_word8XY0 (x y : Reg) : decode (wordCXYN 0x8 x y 0x0) = .ok (.ldReg x y) := by
  obtain ⟨_, hX, hY, hN⟩ := fields_wordCXYN 0x8#4 x y 0x0#4
  simp [decode_word8XYN, decodeCat8, hX, hY, hN]

theorem decode_word8XY1 (x y : Reg) : decode (wordCXYN 0x8 x y 0x1) = .ok (.or x y) := by
  obtain ⟨_, hX, hY, hN⟩ := fields_wordCXYN 0x8#4 x y 0x1#4
  simp [decode_word8XYN, decodeCat8, hX, hY, hN]

theorem decode_word8XY2 (x y : Reg) : decode (wordCXYN 0x8 x y 0x2) = .ok (.and x y) := by
  obtain ⟨_, hX, hY, hN⟩ := fields_wordCXYN 0x8#4 x y 0x2#4
  simp [decode_word8XYN, decodeCat8, hX, hY, hN]

theorem decode_word8XY3 (x y : Reg) : decode (wordCXYN 0x8 x y 0x3) = .ok (.xor x y) := by
  obtain ⟨_, hX, hY, hN⟩ := fields_wordCXYN 0x8#4 x y 0x3#4
  simp [decode_word8XYN, decodeCat8, hX, hY, hN]

/-! ### The transition -/

theorem regsUnchanged_setReg (s : State) (x : Reg) (b : Byte) :
    RegsUnchangedExcept [x] s (s.setReg x b) := by
  intro r hr
  rw [State.reg_setReg, if_neg (List.mem_singleton.not.1 hr)]

/-- An instruction that completes after the one write `V[X] <- b` leaves in `V[X]` a byte with the properties
of `b`, advances pc by 2 and keeps the rest. -/
theorem exists_next_of_exec_setReg (P : Byte → Prop) {i : Instr} {s : State} {x : Reg} {b : Byte}
    (e : exec i s = complete .next (s.setReg x b)) (hb : P b) :
    ∃ t, exec i s = .next t ∧ P (t.reg x) ∧ t.pc = s.pc + 2 ∧
      RegsUnchangedExcept [x] s t ∧ UnchangedExcept [.regs, .pc] s t := by
  refine ⟨_, e, ?_, rfl, regsUnchanged_setReg s x b, ?_⟩
  · rwa [State.reg_setPc, State.reg_setReg, if_pos rfl]
  · exact ((unchanged_setReg s x b).mono (by simp)).trans ((unchanged_setPc _ _).mono (by simp))

/-! ### The obligations -/

/-- Settles O25: the byte written is the immediate. -/
theorem loadImmediate : Obligations.LoadImmediate := by
  unfold Obligations.LoadImmediate
  exact fun x nn s =>
    ⟨decode_word6XNN x nn, exists_next_of_exec_setReg (fun b => b = nn) rfl rfl⟩

/-- Settles O26: the byte written is the sum reduced to 8 bits, and there is no second write. -/
theorem addImmediate : Obligations.AddImmediate := by
  unfold Obligations.AddImmediate
  exact fun x nn s =>
    ⟨decode_word7XNN x nn,
      exists_next_of_exec_setReg (fun b => b.toNat = (s.regNat x + nn.toNat) % 256) rfl
        (BitVec.toNat_ofNat _ 8)⟩

/-- Settles O27: the byte written is the old `V[Y]`. -/
theorem copyRegister : Obligations.CopyRegister := by
  unfold Obligations.CopyRegister
  exact fun x y s =>
    ⟨decode_word8XY0 x y, exists_next_of_exec_setReg (fun b => b = s.reg y) rfl rfl⟩

/-- Settles O28: the byte written is the bitwise operation of the two old bytes, and there is no second
write. -/
theorem logicOperations : Obligations.LogicOperations := by
  unfold Obligations.LogicOperations
  intro x y s
  refine ⟨⟨decode_word8XY1 x y, ?or⟩, ⟨decode_word8XY2 x y, ?and⟩, ⟨decode_word8XY3 x y, ?xor⟩⟩
  case or =>
    exact exists_next_of_exec_setReg
      (fun b => ∀ k, b.getLsbD k = ((s.reg x).getLsbD k || (s.reg y).getLsbD k)) rfl
      fun _ => BitVec.getLsbD_or
  case and =>
    exact exists_next_of_exec_setReg
      (fun b => ∀ k, b.getLsbD k = ((s.reg x).getLsbD k && (s.reg y).getLsbD k)) rfl
      fun _ => BitVec.getLsbD_and
  case xor =>
    exact exists_next_of_exec_setReg
      (fun b => ∀ k, b.getLsbD k = ((s.reg x).getLsbD k ^^ (s.reg y).getLsbD k)) rfl
      fun _ => BitVec.getLsbD_xor

end Sys2Proof.Machine
end

section
/-! SUPPORT. The two instructions that put an address into `I` and write no register: what their words decode
to, and the one transition they share (43_index_memory.md R141, R143). -/

namespace Sys2Proof.Machine

/-! ### The words `ANNN`, `FX29` (30_encoding.md R74) -/

theorem decode_wordANNN (nnn : Addr12) : decode (wordCNNN 0xA nnn) = .ok (.ldI nnn) := by
  obtain ⟨hC, hNNN⟩ := fields_wordCNNN 0xA#4 nnn
  simp [decode, hC, hNNN]

/-- A word of category F is decoded by its low byte (R78). -/
theorem decode_wordFXNN (x : Reg) (nn : Byte) :
    decode (wordCXNN 0xF#4 x nn) = decodeCatF (wordCXNN 0xF#4 x nn) := by
  obtain ⟨hC, _⟩ := fields_wordCXNN 0xF#4 x nn
  simp [decode, hC]

theorem decode_wordFX29 (x : Reg) : decode (wordCXNN 0xF x 0x29) = .ok (.ldF x) := by
  obtain ⟨_, hX, hNN⟩ := fields_wordCXNN 0xF#4 x 0x29#8
  simp [decode_wordFXNN, decodeCatF, hX, hNN]

/-! ### The transition -/

/-- The glyph address is five times the whole byte: at most 5 * 0xFF, so 16 bits hold it (R143). -/
theorem glyphAddr_toNat (b : Byte) : (glyphAddr b).toNat = b.toNat * 5 := by
  have := b.isLt
  rw [glyphAddr, BitVec.toNat_ofNat]
  omega

/-- An instruction that completes after the one write `I <- w` leaves `w` in `I`, advances pc by 2 and keeps
the rest. -/
theorem exists_next_of_exec_setI {i : Instr} {s : State} {w : Word} {n : Nat}
    (e : exec i s = complete .next (s.setI w)) (hw : w.toNat = n) :
    ∃ t, exec i s = .next t ∧ t.i.toNat = n ∧ t.pc = s.pc + 2 ∧ UnchangedExcept [.index, .pc] s t :=
  ⟨_, e, hw, rfl,
    ((unchanged_setI s w).mono (by simp)).trans ((unchanged_setPc _ _).mono (by simp))⟩

/-! ### The obligations -/

/-- Settles O35: the word written is the zero-extended NNN. -/
theorem loadIndex : Obligations.LoadIndex := by
  unfold Obligations.LoadIndex
  exact fun nnn s => ⟨decode_wordANNN nnn, exists_next_of_exec_setI rfl (addrOperand_toNat nnn)⟩

/-- Settles O36: the word written is the glyph address of the whole byte, which does not wrap. -/
theorem fontAddress : Obligations.FontAddress := by
  unfold Obligations.FontAddress
  exact fun x s => ⟨decode_wordFX29 x, exists_next_of_exec_setI rfl (glyphAddr_toNat (s.reg x))⟩

end Sys2Proof.Machine
end

section
/-! SUPPORT. The clear of the display: what its word decodes to, and the state it answers (44_display.md
R150). -/

namespace Sys2Proof.Machine

/-! ### The transition -/

@[simp] theorem State.pixel_setPix (s : State) (d : Display) (p : Pixel) :
    (s.setPix d).pixel p = Display.get d p := rfl

/-- The clear reads nothing of the old display, so it sets `REDRAW` even where that was blank (R150). -/
theorem exec_cls (s : State) :
    exec .cls s = .next (((s.setPix Display.blank).setRedraw true).setPc (s.pc + 2)) := rfl

/-! ### The obligation -/

/-- Settles O44: every pixel is one of the blank display, and the frame is that of the clear. -/
theorem clearScreen : Obligations.ClearScreen := by
  unfold Obligations.ClearScreen
  intro s
  obtain ⟨t, e, frame⟩ := exec_frame .cls s
  obtain rfl := Host.Outcome.next.inj ((exec_cls s).symm.trans e)
  refine ⟨by decide, _, e, fun p => ?_, rfl, rfl, frame⟩
  rw [State.pixel_setPc, State.pixel_setRedraw, State.pixel_setPix, Display.get_blank]

end Sys2Proof.Machine
end

section
/-! SUPPORT. The load of the delay timer: what its word decodes to, and the order of its write and the tick
of the step it completes (45_keys_timers.md R163, 40_cycle.md R96). -/

namespace Sys2Proof.Machine

/-! ### The word `FX07` (30_encoding.md R74) -/

theorem decode_wordFX07 (x : Reg) : decode (wordCXNN 0xF x 0x07) = .ok (.ldVxDt x) := by
  obtain ⟨_, hX, hNN⟩ := fields_wordCXNN 0xF#4 x 0x07#8
  simp [decode_wordFXNN, decodeCatF, hX, hNN]

/-! ### The end of a completed step (40_cycle.md R95) -/

/-- The delay timer after a step is what the instruction left in it, less one unless it is 0. -/
theorem State.endOfStep_dt_toNat {s : State} (h : s.fault = none) :
    s.endOfStep.dt.toNat = s.dt.toNat - 1 := by
  simp [h, tickTimer_toNat]

/-- An enabled step whose instruction answers a next state ends the step on that state. -/
theorem step_of_exec_next {s u : State} {i : Instr} (h : s.Enabled) (hf : s.fetchInstr = .ok i)
    (e : exec i (s.setRedraw false) = .next u) : step s = .next u.endOfStep := by
  rw [step_of_fetch_ok h hf, e, endStep]

/-! ### The transition -/

theorem exec_ldVxDt (x : Reg) (s : State) :
    ∃ t, exec (.ldVxDt x) s = .next t ∧ t.reg x = s.dt ∧ t.pc = s.pc + 2 ∧
      RegsUnchangedExcept [x] s t ∧ UnchangedExcept [.regs, .pc] s t :=
  exists_next_of_exec_setReg (fun b => b = s.dt) rfl rfl

/-! ### The obligation -/

/-- Settles O50: the instruction copies the old `DT` and keeps it, and the tick that ends the step comes
after, so it lowers `DT` and not the copy. -/
theorem loadDelay : Obligations.LoadDelay := by
  unfold Obligations.LoadDelay
  intro x s
  refine ⟨decode_wordFX07 x, exec_ldVxDt x s, fun hen hf => ?_⟩
  obtain ⟨u, e, hx, -, -, frame⟩ := exec_ldVxDt x (s.setRedraw false)
  have hdt : u.dt = s.dt := frame .delay (by simp)
  have hfault : u.fault = s.fault := frame .fault (by simp)
  refine ⟨u.endOfStep, step_of_exec_next hen hf e, hx, ?_⟩
  rw [State.endOfStep_dt_toNat (hfault.trans hen.2), hdt, State.regNat_eq, State.reg_endOfStep, hx,
    State.setRedraw_dt]

end Sys2Proof.Machine
end

section
/-! SUPPORT. The host's moves and the keys: what SetKeys leaves unchanged, and what Reset and LoadROM leave of
the snapshot (70_reset_and_hazards.md R191 to R193). -/

namespace Sys2Proof.Machine

/-! ### The moves -/

@[simp] theorem State.keyDown_setKeys (keys : Vector Bool 16) (s : State) (k : Reg) :
    (setKeys keys s).keyDown k = keys[k.val] := rfl

/-- SetKeys writes no part of the state but the one that holds the snapshot. -/
theorem unchanged_setKeys (keys : Vector Bool 16) (s : State) :
    UnchangedExcept [.settings] s (setKeys keys s) := by
  intro p hp
  cases p with
  | settings => exact absurd (List.mem_singleton.2 rfl) hp
  | stack => exact ⟨rfl, fun _ => rfl⟩
  | regs | memory | pixels => exact fun _ => rfl
  | index | pc | delay | sound | redraw | fault | draws | stepped => rfl

/-- Reset clears the snapshot (R191). -/
@[simp] theorem State.keyDown_hostReset (s : State) (k : Reg) : (hostReset s).keyDown k = false := by
  simp [hostReset, State.construct, State.keyDown]

/-- A LoadROM that is not refused had a ROM that fits, and answers the reset machine with the ROM stored and
the power on (R192). -/
theorem loadRom_next {rom : List Byte} {s t : State} (h : loadRom rom s = .next t) :
    rom.length ≤ romMax ∧ t = { (hostReset s).storeBytes 0x200 rom with powered := true } := by
  by_cases hl : rom.length ≤ romMax
  · rw [loadRom, if_pos hl] at h
    exact ⟨hl, (Host.Outcome.next.inj h).symm⟩
  · rw [loadRom, if_neg hl] at h
    cases h

/-- Storing the ROM and powering the machine leave the keys as the Reset within the load left them. -/
theorem keyDown_of_loadRom {rom : List Byte} {s t : State} (h : loadRom rom s = .next t) (k : Reg) :
    t.keyDown k = false := by
  obtain ⟨-, rfl⟩ := loadRom_next h
  obtain ⟨-, hkeys, -⟩ := unchanged_storeBytes (hostReset s) 0x200 rom .settings (by simp)
  exact (hkeys k).trans (State.keyDown_hostReset s k)

/-! ### The obligation -/

/-- Settles O55: the snapshot is the one field SetKeys writes, and both a Reset and a LoadROM construct it anew. -/
theorem setKeysReplacesSnapshot : Obligations.SetKeysReplacesSnapshot := by
  unfold Obligations.SetKeysReplacesSnapshot
  exact fun keys s => ⟨State.keyDown_setKeys keys s, unchanged_setKeys keys s, rfl, rfl, rfl, rfl,
    State.keyDown_hostReset (setKeys keys s), fun _ _ => keyDown_of_loadRom⟩

end Sys2Proof.Machine
end

section
/-! SUPPORT. Encoder and decoder are inverse to each other, and which words the decoder rejects
(30_encoding.md R70 to R78). -/

namespace Sys2Proof

/-! ### The fields of the encoder's words (30_encoding.md R71, R72) -/

theorem fields_nibbleAddr {c : Nat} (hc : c < 16) (nnn : Addr12) :
    fieldC (nibbleAddr c nnn) = c ∧ fieldNNN (nibbleAddr c nnn) = nnn := by
  have h := nibbleAddr_toNat nnn hc
  have := nnn.isLt
  exact ⟨by rw [fieldC_eq, h]; omega, BitVec.eq_of_toNat_eq (by rw [fieldNNN_toNat, h]; omega)⟩

theorem fields_nibbleByte {c : Nat} (hc : c < 16) (x : Reg) (nn : Byte) :
    fieldC (nibbleByte c x nn) = c ∧ fieldX (nibbleByte c x nn) = x ∧ fieldNN (nibbleByte c x nn) = nn := by
  have h := nibbleByte_toNat nn hc x.isLt
  have := nn.isLt
  exact ⟨by rw [fieldC_eq, h]; omega, Fin.ext (by rw [fieldX_val, h]; omega),
    BitVec.eq_of_toNat_eq (by rw [fieldNN_toNat, h]; omega)⟩

theorem fields_nibbles {c n : Nat} (hc : c < 16) (x y : Reg) (hn : n < 16) :
    fieldC (nibbles c x y n) = c ∧ fieldX (nibbles c x y n) = x ∧ fieldY (nibbles c x y n) = y ∧
      fieldN (nibbles c x y n) = n := by
  have h := nibbles_toNat hc x.isLt y.isLt hn
  exact ⟨by rw [fieldC_eq, h]; omega, Fin.ext (by rw [fieldX_val, h]; omega),
    Fin.ext (by rw [fieldY_val, h]; omega), by rw [fieldN_eq, h]; omega⟩

/-! ### A word is put together from its fields -/

theorem nibbleAddr_fields {w : Word} {c : Nat} (hC : fieldC w = c) : nibbleAddr c (fieldNNN w) = w := by
  rw [fieldC_eq] at hC
  apply BitVec.eq_of_toNat_eq
  rw [nibbleAddr_toNat _ (by omega), fieldNNN_toNat]
  omega

theorem nibbleByte_fields {w : Word} {c : Nat} {nn : Byte} (hC : fieldC w = c) (hNN : fieldNN w = nn) :
    nibbleByte c (fieldX w) nn = w := by
  rw [fieldC_eq] at hC
  apply BitVec.eq_of_toNat_eq
  rw [nibbleByte_toNat _ (by omega) (fieldX w).isLt, ← hNN, fieldX_val, fieldNN_toNat]
  omega

theorem nibbles_fields {w : Word} {c n : Nat} (hC : fieldC w = c) (hN : fieldN w = n) :
    nibbles c (fieldX w) (fieldY w) n = w := by
  rw [fieldC_eq] at hC
  rw [fieldN_eq] at hN
  apply BitVec.eq_of_toNat_eq
  rw [nibbles_toNat (by omega) (fieldX w).isLt (fieldY w).isLt (by omega), fieldX_val, fieldY_val]
  omega

/-! ### The two round trips -/

/-- Decoding undoes encoding: the fields the decoder reads are those the encoder wrote. -/
theorem decode_encode {i : Instr} (hi : i.WellFormed = true) : decode (encode i) = .ok i := by
  cases i with
  | cls | ret => rfl
  | jp nnn | call nnn | ldI nnn | jpV0 nnn => simp [encode, decode, fields_nibbleAddr]
  | seImm x nn | sneImm x nn | ldImm x nn | addImm x nn | rnd x nn =>
    simp [encode, decode, fields_nibbleByte]
  | seReg x y | sneReg x y => simp [encode, decode, fields_nibbles]
  | ldReg x y | or x y | and x y | xor x y | addReg x y | sub x y | shr x y | subn x y | shl x y =>
    simp [encode, decode, decodeCat8, fields_nibbles]
  | drw x y n => simp [encode, decode, fields_nibbles, of_decide_eq_true (p := n < 16) hi]
  | skp x | sknp x => simp [encode, decode, decodeCatE, fields_nibbleByte]
  | ldVxDt x | ldVxK x | ldDtVx x | ldStVx x | addI x | ldF x | ldB x | stRegs x | ldRegs x =>
    simp [encode, decode, decodeCatF, fields_nibbleByte]

theorem decodeBytes_splitWord_append {w : Word} {i : Instr} (h : decode w = .ok i) (rest : List Byte) :
    decodeBytes (splitWord w ++ rest) = .ok (i, rest) := by
  simp [splitWord, decodeBytes, h]

/-- Encoding undoes decoding: the encoder puts together the fields that the decoder took apart or compared. -/
theorem encode_of_decode {w : Word} {i : Instr} (h : decode w = .ok i) : encode i = w := by
  unfold decode decodeCat0 decodeCat8 decodeCatE decodeCatF at h
  repeat' split at h
  all_goals cases h
  all_goals simp [encode, nibbleAddr_fields, nibbleByte_fields, nibbles_fields, *]

/-! ### The rejected words (30_encoding.md R75) -/

/-- A chain of comparisons rejects exactly if the first fails and the rest of it rejects. -/
theorem ite_ok_eq_error_iff {ε α : Type} {p : Prop} [Decidable p] {a : α} {r : Except ε α} {e : ε} :
    (if p then .ok a else r) = .error e ↔ ¬ p ∧ r = .error e := by
  split <;> simp [*]

theorem decodeCat0_error_iff (w : Word) :
    decodeCat0 w = .error (.illegalOpcode w) ↔ w ≠ 0x00E0#16 ∧ w ≠ 0x00EE#16 := by
  simp [decodeCat0, ite_ok_eq_error_iff]

theorem decodeCat8_error_iff (w : Word) :
    decodeCat8 w = .error (.illegalOpcode w) ↔ fieldN w ∈ [0x8, 0x9, 0xA, 0xB, 0xC, 0xD, 0xF] := by
  have hlt : fieldN w < 16 := by rw [fieldN_eq]; omega
  unfold decodeCat8
  interval_cases fieldN w <;> simp

theorem decodeCatE_error_iff (w : Word) :
    decodeCatE w = .error (.illegalOpcode w) ↔ (fieldNN w).toNat ∉ [0x9E, 0xA1] := by
  simp [decodeCatE, ite_ok_eq_error_iff, ← BitVec.toNat_inj]

theorem decodeCatF_error_iff (w : Word) :
    decodeCatF w = .error (.illegalOpcode w) ↔
      (fieldNN w).toNat ∉ [0x07, 0x0A, 0x15, 0x18, 0x1E, 0x29, 0x33, 0x55, 0x65] := by
  simp [decodeCatF, ite_ok_eq_error_iff, ← BitVec.toNat_inj]

/-! ### The obligations -/

/-- Settles O1: the round trip of the word, then the join of its two bytes. -/
theorem decodeInvertsEncode : Obligations.DecodeInvertsEncode := by
  unfold Obligations.DecodeInvertsEncode
  exact fun i hi => ⟨decode_encode hi, decodeBytes_splitWord_append (decode_encode hi)⟩

/-- Settles O2: a word is put together from the fields that decoding took apart. -/
theorem encodeInvertsDecode : Obligations.EncodeInvertsDecode := by
  unfold Obligations.EncodeInvertsDecode
  exact fun w i h => ⟨encode_of_decode h, decode_wellFormed h⟩

/-- Settles O4: one category at a time; where a category has sub-opcodes, those that its decoder rejects. -/
theorem illegalWordsByCategory : Obligations.IllegalWordsByCategory := by
  unfold Obligations.IllegalWordsByCategory
  intro w
  have hlt : fieldC w < 16 := by rw [fieldC_eq]; have := w.isLt; omega
  simp only [← fieldC_eq, ← fieldN_eq, ← fieldNN_toNat, ← decodeCat0_error_iff, ← decodeCat8_error_iff,
    ← decodeCatE_error_iff, ← decodeCatF_error_iff]
  unfold decode
  interval_cases fieldC w <;> simp

/-- Settles O5: ten words evaluated by the decoder. -/
theorem sampleWordsDecode : Obligations.SampleWordsDecode := by
  unfold Obligations.SampleWordsDecode
  decide

end Sys2Proof

namespace Sys2Proof.Machine

/-! ### Words written out from the patterns: the encoder's, so that decoding undoes them too -/

theorem decode_wordCNNN {c : BitVec 4} {nnn : Addr12} {i : Instr} (hi : i.WellFormed = true)
    (he : encode i = nibbleAddr c.toNat nnn) : decode (wordCNNN c nnn) = .ok i := by
  have hw : wordCNNN c nnn = encode i :=
    BitVec.eq_of_toNat_eq (by rw [he, nibbleAddr_toNat nnn c.isLt, wordCNNN_toNat])
  rw [hw, decode_encode hi]

theorem decode_wordCXNN {c : BitVec 4} {x : Reg} {nn : Byte} {i : Instr} (hi : i.WellFormed = true)
    (he : encode i = nibbleByte c.toNat x nn) : decode (wordCXNN c x nn) = .ok i := by
  have hw : wordCXNN c x nn = encode i :=
    BitVec.eq_of_toNat_eq (by rw [he, nibbleByte_toNat nn c.isLt x.isLt, wordCXNN_toNat])
  rw [hw, decode_encode hi]

theorem decode_wordCXYN {c n : BitVec 4} {x y : Reg} {i : Instr} (hi : i.WellFormed = true)
    (he : encode i = nibbles c.toNat x y n.toNat) : decode (wordCXYN c x y n) = .ok i := by
  have hw : wordCXYN c x y n = encode i :=
    BitVec.eq_of_toNat_eq (by rw [he, nibbles_toNat c.isLt x.isLt y.isLt n.isLt, wordCXYN_toNat])
  rw [hw, decode_encode hi]

end Sys2Proof.Machine
end

section
/-! SUPPORT. Which instruction raises which condition and when, and that raising changes nothing but `FAULT`
(60_exceptions.md R170 to R177). -/

namespace Sys2Proof.Machine

/-! ### Raising (R172 to R175) -/

theorem exec_ret_empty {s : State} (h : s.sp.val = 0) : exec .ret s = .next (s.latch .stackUnderflow) :=
  ((execRet_cases s).resolve_right fun ⟨hsp, _⟩ => hsp h).2

theorem exec_call_full (nnn : Addr12) {s : State} (h : s.sp.val = 16) :
    exec (.call nnn) s = .next (s.latch .stackOverflow) :=
  ((execCall_cases nnn s).resolve_right fun ⟨hsp, _⟩ => by omega).2

theorem exec_skp_above {x : Reg} {s : State} (h : 15 < s.regNat x) :
    exec (.skp x) s = .next (s.latch (.keyIndexOutOfRange (s.reg x))) :=
  ((execSkp_cases x s).resolve_right fun ⟨hx, _⟩ => by omega).2

theorem exec_sknp_above {x : Reg} {s : State} (h : 15 < s.regNat x) :
    exec (.sknp x) s = .next (s.latch (.keyIndexOutOfRange (s.reg x))) :=
  ((execSknp_cases x s).resolve_right fun ⟨hx, _⟩ => by omega).2

theorem exec_drw_out (x y : Reg) {n : Nat} {s : State} (h : n ≠ 0 ∧ memSize < s.base + n) :
    exec (.drw x y n) s = .next (s.latch (.memoryOutOfRange (max s.base 0x1000))) :=
  ((execDrw_cases x y n s).resolve_right fun ⟨hin, _⟩ => by omega).2

theorem exec_ldB_out (x : Reg) {s : State} (h : memSize < s.base + 3) :
    exec (.ldB x) s = .next (s.latch (.memoryOutOfRange (max s.base 0x1000))) :=
  ((execLdB_cases x s).resolve_right fun ⟨hin, _⟩ => by omega).2

theorem exec_stRegs_out {x : Reg} {s : State} (h : memSize < s.base + (x.val + 1)) :
    exec (.stRegs x) s = .next (s.latch (.memoryOutOfRange (max s.base 0x1000))) :=
  ((execStRegs_cases x s).resolve_right fun ⟨hin, _⟩ => by omega).2

theorem exec_ldRegs_out {x : Reg} {s : State} (h : memSize < s.base + (x.val + 1)) :
    exec (.ldRegs x) s = .next (s.latch (.memoryOutOfRange (max s.base 0x1000))) :=
  ((execLdRegs_cases x s).resolve_right fun ⟨hin, _⟩ => by omega).2

/-! ### What is in `FAULT` after an instruction -/

@[simp] theorem State.setRegs_fault (s : State) (l : List (Reg × Byte)) :
    (s.setRegs l).fault = s.fault := by rw [State.setRegs_eq]

/-- Where an instruction raises exactly if `P` holds, and otherwise completes, `P` decides `FAULT`. -/
theorem fault_eq_ite {P : Prop} [Decidable P] {c : Condition} {s t : State} {r : Result}
    (hs : s.fault = none) (h : r = .next t)
    (hr : (P ∧ r = .next (s.latch c)) ∨ (¬ P ∧ ∃ u, r = .next u ∧ u.fault = s.fault)) :
    t.fault = if P then some c else none := by
  rcases hr with ⟨hP, e⟩ | ⟨hP, u, e, hu⟩ <;> cases Host.Outcome.next.inj (e.symm.trans h)
  · rw [if_pos hP, State.latch_fault]
  · rw [if_neg hP, hu, hs]

/-! ### The obligations -/

/-- Settles O12: each of the eight instructions that can raise, on the raising side of its two ways out. -/
theorem raisingHandlersChangeOnlyFault : Obligations.RaisingHandlersChangeOnlyFault := by
  unfold Obligations.RaisingHandlersChangeOnlyFault
  intro s x y nnn n
  have hbase : s.base = s.i.toNat := rfl
  have hsize : memSize = 0x1000 := rfl
  exact ⟨exec_ret_empty, exec_call_full nnn, fun h => ⟨exec_skp_above h, exec_sknp_above h⟩,
    fun h => exec_drw_out x y (by omega), fun h => exec_ldB_out x (by omega),
    fun h => ⟨exec_stRegs_out (by omega), exec_ldRegs_out (by omega)⟩⟩

/-- Settles O11: an instruction that can raise does so on the one side of its two ways out; every other leaves
`FAULT` out of what it may change. -/
theorem handlersRaiseExactlyTheirConditions : Obligations.HandlersRaiseExactlyTheirConditions := by
  unfold Obligations.HandlersRaiseExactlyTheirConditions
  intro i s t hs h
  have hbase : s.base = s.i.toNat := rfl
  have hsize : memSize = 0x1000 := rfl
  cases i with
  | ret => exact fault_eq_ite hs h ((execRet_cases s).imp id fun ⟨hsp, e⟩ => ⟨hsp, _, e, rfl⟩)
  | call nnn =>
    exact fault_eq_ite hs h ((execCall_cases nnn s).imp id fun ⟨hsp, e⟩ => ⟨by omega, _, e, rfl⟩)
  | skp x => exact fault_eq_ite hs h ((execSkp_cases x s).imp id fun ⟨hx, e⟩ => ⟨by omega, _, e, rfl⟩)
  | sknp x => exact fault_eq_ite hs h ((execSknp_cases x s).imp id fun ⟨hx, e⟩ => ⟨by omega, _, e, rfl⟩)
  | drw x y n =>
    exact fault_eq_ite hs h ((execDrw_cases x y n s).imp (.imp_left fun hout => by omega)
      fun ⟨hin, e⟩ => ⟨by omega, _, e, rfl⟩)
  | ldB x =>
    exact fault_eq_ite hs h ((execLdB_cases x s).imp (.imp_left fun hout => by omega)
      fun ⟨hin, e⟩ => ⟨by omega, _, e, State.storeBytes_fault s _ _⟩)
  | stRegs x =>
    exact fault_eq_ite hs h ((execStRegs_cases x s).imp (.imp_left fun hout => by omega)
      fun ⟨hin, e⟩ => ⟨by omega, _, e, State.storeBytes_fault s _ _⟩)
  | ldRegs x =>
    exact fault_eq_ite hs h ((execLdRegs_cases x s).imp (.imp_left fun hout => by omega)
      fun ⟨hin, e⟩ => ⟨by omega, _, e, State.setRegs_fault s _⟩)
  | _ => exact Eq.trans (exec_unchanged h .fault (by simp [partsOf])) hs

end Sys2Proof.Machine
end

section
/-! SUPPORT. The invariant: what an instruction does to memory and to the latch, and that every step and every
move of the host keeps it (20_memory.md R50, 60_exceptions.md R171 to R177, 70_reset_and_hazards.md R195). -/

namespace Sys2Proof.Machine

/-! ### Memory -/

@[simp] theorem State.setRegs_mem (s : State) (l : List (Reg × Byte)) : (s.setRegs l).mem = s.mem := by
  rw [State.setRegs_eq]

/-- An instruction leaves memory as it is, or has stored bytes from `I` inside the address space (20_memory.md
R55). -/
theorem exec_mem {i : Instr} {s t : State} (h : exec i s = .next t) :
    t.mem = s.mem ∨ ∃ bs, s.base + bs.length ≤ memSize ∧ t.mem = (s.storeBytes s.base bs).mem := by
  cases i with
  | ldB x =>
    rcases execLdB_cases x s with ⟨_, e⟩ | ⟨hin, e⟩ <;> cases Host.Outcome.next.inj (e.symm.trans h)
    · exact .inl rfl
    · exact .inr ⟨bcdDigits (s.reg x), hin, rfl⟩
  | stRegs x =>
    rcases execStRegs_cases x s with ⟨_, e⟩ | ⟨hin, e⟩ <;> cases Host.Outcome.next.inj (e.symm.trans h)
    · exact .inl rfl
    · exact .inr ⟨_, by simpa using hin, rfl⟩
  | ret =>
    rcases execRet_cases s with ⟨_, e⟩ | ⟨_, e⟩ <;> cases Host.Outcome.next.inj (e.symm.trans h) <;>
      exact .inl rfl
  | call nnn =>
    rcases execCall_cases nnn s with ⟨_, e⟩ | ⟨_, e⟩ <;> cases Host.Outcome.next.inj (e.symm.trans h) <;>
      exact .inl rfl
  | skp x =>
    rcases execSkp_cases x s with ⟨_, e⟩ | ⟨_, e⟩ <;> cases Host.Outcome.next.inj (e.symm.trans h) <;>
      exact .inl rfl
  | sknp x =>
    rcases execSknp_cases x s with ⟨_, e⟩ | ⟨_, e⟩ <;> cases Host.Outcome.next.inj (e.symm.trans h) <;>
      exact .inl rfl
  | ldVxK x =>
    rcases execLdVxK_cases x s with ⟨_, e⟩ | ⟨_, _, _, e, _⟩ <;>
      cases Host.Outcome.next.inj (e.symm.trans h) <;> exact .inl rfl
  | drw x y n =>
    rcases execDrw_cases x y n s with ⟨_, e⟩ | ⟨_, e⟩ <;> cases Host.Outcome.next.inj (e.symm.trans h) <;>
      exact .inl rfl
  | ldRegs x =>
    rcases execLdRegs_cases x s with ⟨_, e⟩ | ⟨_, e⟩ <;> cases Host.Outcome.next.inj (e.symm.trans h)
    · exact .inl rfl
    · exact .inl (State.setRegs_mem s _)
  | _ => cases Host.Outcome.next.inj h; exact .inl rfl

theorem settings_not_mem_partsOf (i : Instr) : Part.settings ∉ partsOf i := by
  cases i <;> simp [partsOf]

/-- No instruction takes memory out of its canonical form (20_memory.md R50, log 19). -/
theorem exec_wf {i : Instr} {s t : State} (h : exec i s = .next t) (hs : Memory.wf s.font s.mem) :
    Memory.wf t.font t.mem := by
  obtain ⟨-, -, -, -, hfont⟩ := exec_unchanged h .settings (settings_not_mem_partsOf i)
  rw [hfont]
  rcases exec_mem h with e | ⟨bs, hin, e⟩ <;> rw [e]
  · exact hs
  · exact s.wf_storeBytes s.base bs hs hin

/-! ### The latch (60_exceptions.md R171 to R175) -/

theorem State.latchTruthful_of_fault_none {s : State} (h : s.fault = none) : s.LatchTruthful := by
  unfold State.LatchTruthful
  rw [h]
  trivial

/-- A fetch that raises has latched what is true of pc and the word there. -/
theorem State.latchTruthful_of_fetch_error {s : State} {c : Condition} (h : s.fetchInstr = .error c) :
    (s.latch c).LatchTruthful := by
  rcases State.fetchInstr_error h with ⟨hpc, rfl⟩ | ⟨hpc, rfl, hd⟩
  · exact .inl ⟨hpc, rfl⟩
  · exact ⟨hpc, joinBytes_toNat _ _, hd⟩

/-- An instruction that reaches out of memory from `I` is the reason for the condition it latches. -/
theorem State.latchTruthful_of_window {i : Instr} {s : State} {len : Nat} (hf : s.fetchInstr = .ok i)
    (hw : readWindow i s = (s.base, len) ∨ writeWindow i s = (s.base, len))
    (hout : len ≠ 0 ∧ 0x1000 < s.i.toNat + len) :
    (s.latch (.memoryOutOfRange (max s.base 0x1000))).LatchTruthful :=
  .inr ⟨i, (s.fetchInstr_latch _).trans hf, len, hw, hout.1, hout.2, rfl⟩

/-- The instruction at pc has latched, if anything, what is true of the state it ran in. -/
theorem latchTruthful_of_exec {i : Instr} {s t : State} (hs : s.fault = none) (hf : s.fetchInstr = .ok i)
    (h : exec i s = .next t) : t.LatchTruthful := by
  have hfetch (c : Condition) : (s.latch c).fetchInstr = .ok i := (s.fetchInstr_latch c).trans hf
  rcases exec_completes_or_raises h with hc | ⟨c, rfl⟩
  · exact State.latchTruthful_of_fault_none (hc.trans hs)
  have hraised := handlersRaiseExactlyTheirConditions i s _ hs h
  cases i with
  | ret =>
    obtain ⟨hsp, ⟨⟩⟩ := Option.ite_none_right_eq_some.1 hraised.symm
    exact ⟨hsp, hfetch _⟩
  | call nnn =>
    obtain ⟨hsp, ⟨⟩⟩ := Option.ite_none_right_eq_some.1 hraised.symm
    exact ⟨hsp, nnn, hfetch _⟩
  | skp x =>
    obtain ⟨hx, ⟨⟩⟩ := Option.ite_none_right_eq_some.1 hraised.symm
    exact ⟨hx, x, .inl (hfetch _), rfl⟩
  | sknp x =>
    obtain ⟨hx, ⟨⟩⟩ := Option.ite_none_right_eq_some.1 hraised.symm
    exact ⟨hx, x, .inr (hfetch _), rfl⟩
  | drw x y n =>
    obtain ⟨hout, ⟨⟩⟩ := Option.ite_none_right_eq_some.1 hraised.symm
    exact State.latchTruthful_of_window hf (.inl rfl) (by omega)
  | ldB x =>
    obtain ⟨hout, ⟨⟩⟩ := Option.ite_none_right_eq_some.1 hraised.symm
    exact State.latchTruthful_of_window hf (.inr rfl) (by omega)
  | stRegs x =>
    obtain ⟨hout, ⟨⟩⟩ := Option.ite_none_right_eq_some.1 hraised.symm
    exact State.latchTruthful_of_window hf (.inr rfl) (by omega)
  | ldRegs x =>
    obtain ⟨hout, ⟨⟩⟩ := Option.ite_none_right_eq_some.1 hraised.symm
    exact State.latchTruthful_of_window hf (.inl rfl) (by omega)
  | _ => cases hraised

/-- The end of the step keeps the truth of the latch: it moves only what the latch does not speak of. -/
theorem State.latchTruthful_endOfStep {s : State} (h : s.LatchTruthful) : s.endOfStep.LatchTruthful :=
  State.latchTruthful_congr h rfl rfl (fun _ => rfl) rfl rfl fun _ => rfl

/-! ### The moves that leave memory, the latch and the step record alone -/

/-- The settings and the keys are no part of the invariant. -/
theorem State.Inv.congr_inputs {s : State} (h : s.Inv) (keys : Vector Bool 16) (w : WrapMode) (d : Dialect) :
    State.Inv { s with key := keys, wrapMode := w, dialect := d } where
  memory := h.memory
  latch := State.latchTruthful_congr h.latch rfl rfl (fun _ => rfl) rfl rfl fun _ => rfl
  power := h.power
  begun := h.begun
  run := h.run

/-- A machine on which no step has been taken has the invariant if its memory is canonical. -/
theorem State.inv_of_not_stepped {s : State} (hm : Memory.wf s.font s.mem) (hf : s.fault = none)
    (hs : s.stepped = false) : s.Inv where
  memory := hm
  latch := State.latchTruthful_of_fault_none hf
  power := fun h => absurd hf h
  begun := fun h => absurd hf h
  run := fun h => absurd (hs.symm.trans h) (by decide)

theorem inv_construct (w : WrapMode) (d : Dialect) (font : Font) : (State.construct w d font).Inv :=
  State.inv_of_not_stepped Memory.wf_nil rfl rfl

theorem inv_hostReset (s : State) : (hostReset s).Inv := State.inv_of_not_stepped Memory.wf_nil rfl rfl

/-- A ROM that fits is stored inside the address space: 0x200 + 3584 is 4096 (00_scope.md R5). -/
theorem inv_loadRom {rom : List Byte} {s t : State} (h : loadRom rom s = .next t) : t.Inv := by
  obtain ⟨hlen, rfl⟩ := loadRom_next h
  have hlen : rom.length ≤ 3584 := hlen
  have hwf := (hostReset s).wf_storeBytes 0x200 rom Memory.wf_nil (show 0x200 + rom.length ≤ 4096 by omega)
  refine State.inv_of_not_stepped ?_ ((hostReset s).storeBytes_fault 0x200 rom)
    ((hostReset s).storeBytes_stepped 0x200 rom)
  rwa [← (hostReset s).storeBytes_font 0x200 rom] at hwf

theorem configure_next {w : WrapMode} {d : Dialect} {s t : State} (h : configure w d s = .next t) :
    s.stepped = false ∧ t = { s with wrapMode := w, dialect := d } := by
  cases hs : s.stepped <;> simp only [configure, hs] at h
  · exact ⟨rfl, (Host.Outcome.next.inj h).symm⟩
  · cases h

/-! ### The obligations -/

/-- Settles O57: nothing is listed in memory, nothing latched and no step taken, and Reset constructs the same
state again. -/
theorem constructedMachineHasInv : Obligations.ConstructedMachineHasInv := by
  unfold Obligations.ConstructedMachineHasInv
  exact ⟨inv_construct _ _ _, rfl, fun w d font => ⟨inv_construct w d font, rfl⟩⟩

/-- Settles O58: the fetch or the instruction leaves memory canonical and latches what is true of the state it
reads, and the end of the step, taken only on a powered machine, keeps both. -/
theorem stepKeepsInv : Obligations.StepKeepsInv := by
  unfold Obligations.StepKeepsInv
  intro s t hs h
  obtain ⟨⟨hpow, hnone⟩, ⟨c, hf, rfl⟩ | ⟨i, u, hf, e, rfl⟩⟩ := step_next h
  · have hlatch : ((s.setRedraw false).latch c).LatchTruthful :=
      State.latchTruthful_of_fetch_error (by rwa [State.fetchInstr_setRedraw])
    exact ⟨hs.memory, State.latchTruthful_endOfStep hlatch, fun _ => hpow, fun _ => rfl, fun _ => hpow⟩
  · have hlatch : u.LatchTruthful :=
      latchTruthful_of_exec (s := s.setRedraw false) hnone (by rwa [State.fetchInstr_setRedraw]) e
    obtain ⟨hp, -⟩ := exec_unchanged e .settings (settings_not_mem_partsOf i)
    have hwf : Memory.wf u.font u.mem := exec_wf e hs.memory
    exact ⟨hwf, State.latchTruthful_endOfStep hlatch, fun _ => hp.trans hpow, fun _ => rfl,
      fun _ => hp.trans hpow⟩

/-- Settles O59: Configure and SetKeys touch nothing the invariant speaks of, Reset and LoadROM begin a run, and
a step is O58. -/
theorem hostMovesKeepInv : Obligations.HostMovesKeepInv := by
  unfold Obligations.HostMovesKeepInv
  intro m s t hs h
  cases m with
  | configure w d =>
    obtain ⟨-, rfl⟩ := configure_next h
    exact hs.congr_inputs s.key w d
  | reset => cases Host.Outcome.next.inj h; exact inv_hostReset s
  | loadRom rom => exact inv_loadRom h
  | setKeys keys => cases Host.Outcome.next.inj h; exact hs.congr_inputs keys s.wrapMode s.dialect
  | step => exact stepKeepsInv s t hs h

end Sys2Proof.Machine
end

section
/-! SUPPORT. The step as a whole: which state it answers when it raises, when it answers at all, its timers, and
what it leaves unchanged (40_cycle.md R90 to R98, 60_exceptions.md R177). -/

namespace Sys2Proof.Machine

/-! ### The fetched word (20_memory.md R52) -/

theorem State.fetchWord_eq {s : State} {w : Word}
    (hw : w.toNat = (s.byteAt s.pc.toNat).toNat * 256 + (s.byteAt (s.pc.toNat + 1)).toNat) :
    s.fetchWord = w :=
  BitVec.eq_of_toNat_eq ((joinBytes_toNat _ _).trans hw.symm)

theorem State.fetchInstr_of_decode_ok {s : State} {w : Word} {i : Instr} (hpc : s.pc.toNat ≤ 0xFFE)
    (hw : s.fetchWord = w) (hd : decode w = .ok i) : s.fetchInstr = .ok i := by
  rw [s.fetchInstr_eq hpc, hw, hd]

theorem State.fetchInstr_of_decode_error {s : State} {w : Word} (hpc : s.pc.toNat ≤ 0xFFE)
    (hw : s.fetchWord = w) (hd : ∀ i, decode w ≠ .ok i) : s.fetchInstr = .error (.illegalOpcode w) := by
  rw [s.fetchInstr_eq hpc, hw]
  cases h : decode w with
  | ok i => exact absurd h (hd i)
  | error e => rfl

/-! ### A step that raises (60_exceptions.md R177) -/

/-- The state a step answers that raised `c`. -/
def State.raised (s : State) (c : Condition) : State := ((s.setRedraw false).latch c).endOfStep

theorem State.unchanged_raised (s : State) (c : Condition) :
    UnchangedExcept [.redraw, .fault, .stepped] s (s.raised c) := by
  have hend := unchanged_endOfStep_of_fault (s := (s.setRedraw false).latch c) (by simp)
  exact (((unchanged_setRedraw s false).mono (by simp)).trans ((unchanged_latch _ c).mono (by simp))).trans
    (hend.mono (by simp))

theorem step_of_fetch_error_raised {s : State} {c : Condition} (h : s.Enabled) (hf : s.fetchInstr = .error c) :
    ∃ t, step s = .next t ∧ t.fault = some c ∧ t.redraw = false ∧
      UnchangedExcept [.redraw, .fault, .stepped] s t :=
  ⟨s.raised c, step_of_fetch_error h hf, rfl, rfl, s.unchanged_raised c⟩

/-- However a step came to raise a condition, it answers the same kind of state. -/
theorem step_raised {s t : State} (h : step s = .next t) (ht : t.fault ≠ none) : ∃ c, t = s.raised c := by
  obtain ⟨⟨-, hnone⟩, ⟨c, -, rfl⟩ | ⟨i, u, -, e, rfl⟩⟩ := step_next h
  · exact ⟨c, rfl⟩
  · rcases exec_completes_or_raises e with hu | ⟨c, rfl⟩
    · exact absurd (hu.trans hnone) ht
    · exact ⟨c, rfl⟩

/-- A step that completes has fetched an instruction, which completed. -/
theorem step_completed {s t : State} (h : step s = .next t) (ht : t.fault = none) :
    ∃ i u, s.fetchInstr = .ok i ∧ exec i (s.setRedraw false) = .next u ∧ u.fault = none ∧
      t = u.endOfStep := by
  obtain ⟨-, ⟨c, -, rfl⟩ | ⟨i, u, hf, e, rfl⟩⟩ := step_next h
  · cases ht
  · exact ⟨i, u, hf, e, ht, rfl⟩

/-- A safe step is one that fetched an instruction which does not raise. -/
theorem safeStep_iff (s : State) : SafeStep s ↔ s.Enabled ∧ ∃ i, s.fetchInstr = .ok i ∧
    ∃ u, exec i (s.setRedraw false) = .next u ∧ u.fault = none := by
  constructor
  · rintro ⟨t, h, ht⟩
    obtain ⟨i, u, hf, e, hu, -⟩ := step_completed h ht
    exact ⟨(step_next h).1, i, hf, u, e, hu⟩
  · rintro ⟨he, i, hf, u, e, hu⟩
    exact ⟨u.endOfStep, step_of_exec_next he hf e, hu⟩

/-! ### The end of a completed step (40_cycle.md R95) -/

/-- The sound timer after a step is what the instruction left in it, less one unless it is 0. -/
theorem State.endOfStep_st_toNat {s : State} (h : s.fault = none) :
    s.endOfStep.st.toNat = s.st.toNat - 1 := by
  simp [h, tickTimer_toNat]

/-! ### A parked machine (40_cycle.md R98) -/

theorem step_parked {s : State} (he : s.Enabled) (hp : s.Parked) :
    step s = .next (s.setRedraw false).endOfStep := by
  obtain ⟨nnn, hf, hpc⟩ := hp
  have hself : (s.setRedraw false).setPc (addrOperand nnn) = s.setRedraw false := by
    rw [addrOperand, hpc]; rfl
  exact step_of_exec_next he hf ((exec_jp nnn _).trans (congrArg _ hself))

theorem State.Parked.endOfStep {s : State} (hp : s.Parked) : (s.setRedraw false).endOfStep.Parked := by
  obtain ⟨nnn, hf, hpc⟩ := hp
  exact ⟨nnn, by rwa [State.fetchInstr_endOfStep, State.fetchInstr_setRedraw], hpc⟩

/-- Parked steps one after the other: each takes one from the timers and stays parked. -/
theorem runSteps_parked {s : State} (n : Nat) (he : s.Enabled) (hp : s.Parked) :
    ∃ t, runSteps n s = .next t ∧ t.dt.toNat = s.dt.toNat - n ∧ t.st.toNat = s.st.toNat - n ∧
      (n ≠ 0 ∨ s.redraw = false → t.redraw = false) ∧
      UnchangedExcept [.delay, .sound, .redraw, .stepped] s t := by
  induction n generalizing s with
  | zero => exact ⟨s, rfl, rfl, rfl, by simp, UnchangedExcept.refl _ s⟩
  | succ n ih =>
    obtain ⟨t, e, hdt, hst, hredraw, frame⟩ := ih (s := (s.setRedraw false).endOfStep) he hp.endOfStep
    have hfault : (s.setRedraw false).fault = none := he.2
    rw [State.endOfStep_dt_toNat hfault, State.setRedraw_dt] at hdt
    rw [State.endOfStep_st_toNat hfault, State.setRedraw_st] at hst
    refine ⟨t, (runSteps_succ n (step_parked he hp)).trans e, by omega, by omega,
      fun _ => hredraw (.inr rfl), ?_⟩
    exact (((unchanged_setRedraw s false).mono (by simp)).trans
      ((unchanged_endOfStep _).mono (by simp))).trans frame

/-! ### `REDRAW` (10_state.md R30) -/

/-- An instruction that begins with `REDRAW` false ends with it true exactly if it completed a clear or a draw,
and otherwise has left the display as it was. -/
theorem exec_redraw {i : Instr} {s t : State} (hs : s.fault = none) (hr : s.redraw = false)
    (h : exec i s = .next t) :
    (t.redraw = true ↔ t.fault = none ∧ i.touchesDisplay = true) ∧
      (t.redraw = false → ∀ p, t.pixel p = s.pixel p) := by
  cases i with
  | cls =>
    cases Host.Outcome.next.inj h
    simp [Instr.touchesDisplay, hs]
  | drw x y n =>
    rcases execDrw_cases x y n s with ⟨_, e⟩ | ⟨_, e⟩ <;> cases Host.Outcome.next.inj (e.symm.trans h)
    · simp [hr]
    · simp [Instr.touchesDisplay, hs]
  | _ =>
    have hredraw := Eq.trans (exec_unchanged h .redraw (by simp [partsOf])) hr
    exact ⟨by simp [hredraw, Instr.touchesDisplay], fun _ => exec_unchanged h .pixels (by simp [partsOf])⟩

theorem step_setRedraw (s : State) (b : Bool) : step (s.setRedraw b) = step s := by
  have hblocked : (s.setRedraw b).stepBlocked = s.stepBlocked := rfl
  simp only [step, hblocked, State.setRedraw_setRedraw]

/-! ### The obligations -/

/-- Settles O6: the word the fetch joins is the one given. -/
theorem stepRunsDecodedInstruction : Obligations.StepRunsDecodedInstruction := by
  unfold Obligations.StepRunsDecodedInstruction
  exact fun s w i he hpc hw hd =>
    step_of_fetch_ok he (State.fetchInstr_of_decode_ok hpc (State.fetchWord_eq hw) hd)

/-- Settles O7: the fetch raises with the word it joined. -/
theorem stepOnIllegalWordLatchesIt : Obligations.StepOnIllegalWordLatchesIt := by
  unfold Obligations.StepOnIllegalWordLatchesIt
  exact fun s w he hpc hw hd =>
    step_of_fetch_error_raised he (State.fetchInstr_of_decode_error hpc (State.fetchWord_eq hw) hd)

/-- Settles O8: the fetch raises with the first address outside memory. -/
theorem stepOnUnfetchablePcLatches : Obligations.StepOnUnfetchablePcLatches := by
  unfold Obligations.StepOnUnfetchablePcLatches
  exact fun s he hpc => step_of_fetch_error_raised he (s.fetchInstr_out hpc)

/-- Settles O9: an enabled step ends after the fetch or after the instruction, and every instruction answers a
next state. -/
theorem stepAnswersNextIffEnabled : Obligations.StepAnswersNextIffEnabled := by
  unfold Obligations.StepAnswersNextIffEnabled
  refine fun s => ⟨fun ⟨t, h⟩ => (step_next h).1, fun he => ?_⟩
  cases hf : s.fetchInstr with
  | error c => exact ⟨_, step_of_fetch_error he hf⟩
  | ok i =>
    obtain ⟨u, e, -⟩ := exec_frame i (s.setRedraw false)
    exact ⟨_, step_of_exec_next he hf e⟩

/-- Settles O10: whatever raised, the step answers `State.raised`. -/
theorem raisingStepIsPrecise : Obligations.RaisingStepIsPrecise := by
  unfold Obligations.RaisingStepIsPrecise
  intro s t h ht
  obtain ⟨c, rfl⟩ := step_raised h ht
  exact ⟨rfl, s.unchanged_raised c⟩

/-- Settles O13: an enabled step that fetched an instruction completes exactly if that instruction does not
raise, which O11 decides. -/
theorem safeStepIffWithinBounds : Obligations.SafeStepIffWithinBounds := by
  unfold Obligations.SafeStepIffWithinBounds
  intro s
  rw [safeStep_iff]
  refine and_congr_right fun he => exists_congr fun i => and_congr_right fun _ => ?_
  obtain ⟨u, e, -⟩ := exec_frame i (s.setRedraw false)
  have hraised := handlersRaiseExactlyTheirConditions i (s.setRedraw false) u he.2 e
  have hu : (∃ v, exec i (s.setRedraw false) = .next v ∧ v.fault = none) ↔ u.fault = none := by simp [e]
  rw [hu, hraised]
  cases i with
  | ret =>
    simp only [ite_eq_right_iff, reduceCtorEq, imp_false]
    exact Iff.rfl
  | call nnn | skp x | sknp x | drw x y n | ldB x | stRegs x | ldRegs x =>
    simp only [ite_eq_right_iff, reduceCtorEq, imp_false]
    simp only [State.regNat_eq, State.reg_setRedraw, State.setRedraw_sp, State.setRedraw_i]
    omega
  | _ => exact iff_of_true rfl trivial

/-- Settles O14: the tick is the end of a completed step; a raising step is O10. -/
theorem timersTickOncePerCompletedStep : Obligations.TimersTickOncePerCompletedStep := by
  unfold Obligations.TimersTickOncePerCompletedStep
  refine fun s t h => ⟨fun ht => ?_, fun ht => ?_⟩
  · obtain ⟨i, u, hf, e, hu, rfl⟩ := step_completed h ht
    exact ⟨i, u, hf, e, State.endOfStep_dt_toNat hu, State.endOfStep_st_toNat hu, unchanged_endOfStep u⟩
  · obtain ⟨-, frame⟩ := raisingStepIsPrecise s t h ht
    exact ⟨frame .delay (by simp), frame .sound (by simp)⟩

/-- Settles O15: by induction on the number of steps. -/
theorem parkedMachineCountsDown : Obligations.ParkedMachineCountsDown := by
  unfold Obligations.ParkedMachineCountsDown
  intro s n he hp
  obtain ⟨t, e, hdt, hst, hredraw, frame⟩ := runSteps_parked n he hp
  exact ⟨t, e, hdt, hst, fun hn => hredraw (.inl hn), frame⟩

/-- Settles O16: neither a raising step nor an instruction nor the end of a step has the settings among what it
may change. -/
theorem stepKeepsSettingsAndInputs : Obligations.StepKeepsSettingsAndInputs := by
  unfold Obligations.StepKeepsSettingsAndInputs
  intro s t h
  obtain ⟨-, ⟨c, -, rfl⟩ | ⟨i, u, -, e, rfl⟩⟩ := step_next h
  · exact s.unchanged_raised c .settings (by simp)
  · exact ((unchanged_setRedraw s false .settings (by simp)).trans
      (exec_unchanged e .settings (settings_not_mem_partsOf i))).trans
      (unchanged_endOfStep u .settings (by simp))

/-- Settles O47: the step clears `REDRAW` before it fetches, and after that only a clear or a draw sets it. -/
theorem redrawMarksDisplayInstructions : Obligations.RedrawMarksDisplayInstructions := by
  unfold Obligations.RedrawMarksDisplayInstructions
  refine ⟨fun s t h => ?_, step_setRedraw, fun s => rfl, fun rom s t h => ?_, fun keys s => rfl,
    fun w d s t h => ?_⟩
  · obtain ⟨⟨-, hnone⟩, ⟨c, hf, rfl⟩ | ⟨i, u, hf, e, rfl⟩⟩ := step_next h
    · exact ⟨by simp, fun _ => s.unchanged_raised c .pixels (by simp)⟩
    · obtain ⟨hredraw, hpixels⟩ := exec_redraw (s := s.setRedraw false) hnone rfl e
      exact ⟨by simpa [hf] using hredraw, hpixels⟩
  · obtain ⟨-, rfl⟩ := loadRom_next h
    exact (hostReset s).storeBytes_redraw 0x200 rom
  · obtain ⟨-, rfl⟩ := configure_next h
    rfl

end Sys2Proof.Machine
end

section
/-! SUPPORT. The call, the return and the skips on two registers: which words of theirs are illegal, what they
answer, and that no other instruction touches the stack (41_control_flow.md R101 to R108, 10_state.md R25). -/

namespace Sys2Proof.Machine

/-! ### The words `5XYN`, `9XYN` (30_encoding.md R75) -/

/-- A word of category 5 is a skip if its low nibble is 0, and otherwise illegal. -/
theorem decode_word5XYN (x y : Reg) (n : BitVec 4) :
    decode (wordCXYN 0x5 x y n) =
      if n = 0 then .ok (.seReg x y) else .error (.illegalOpcode (wordCXYN 0x5 x y n)) := by
  obtain ⟨hC, hX, hY, hN⟩ := fields_wordCXYN 0x5#4 x y n
  simp [decode, hC, hX, hY, hN, ← BitVec.toNat_inj]

/-- A word of category 9 is a skip if its low nibble is 0, and otherwise illegal. -/
theorem decode_word9XYN (x y : Reg) (n : BitVec 4) :
    decode (wordCXYN 0x9 x y n) =
      if n = 0 then .ok (.sneReg x y) else .error (.illegalOpcode (wordCXYN 0x9 x y n)) := by
  obtain ⟨hC, hX, hY, hN⟩ := fields_wordCXYN 0x9#4 x y n
  simp [decode, hC, hX, hY, hN, ← BitVec.toNat_inj]

/-! ### What the instructions answer -/

theorem exec_call_room (nnn : Addr12) {s : State} (h : s.sp.val < 16) :
    exec (.call nnn) s = .next { s with
      stack := s.stack.set s.sp.val (s.pc + 2), sp := ⟨s.sp.val + 1, by omega⟩, pc := addrOperand nnn } := by
  obtain ⟨_, e⟩ := (execCall_cases nnn s).resolve_left fun ⟨hfull, _⟩ => by omega
  exact e

theorem exec_ret_entry {s : State} (h : s.sp.val ≠ 0) :
    exec .ret s = .next { s with pc := s.stack[s.sp.val - 1], sp := ⟨s.sp.val - 1, by omega⟩ } := by
  obtain ⟨_, e⟩ := (execRet_cases s).resolve_left fun ⟨hempty, _⟩ => h hempty
  exact e

theorem exec_seReg (x y : Reg) (s : State) :
    exec (.seReg x y) s = .next (s.setPc (s.pc + if s.reg x = s.reg y then 4 else 2)) := by
  simp [exec, execSeReg]

theorem exec_sneReg (x y : Reg) (s : State) :
    exec (.sneReg x y) s = .next (s.setPc (s.pc + if s.reg x = s.reg y then 2 else 4)) := by
  simp [exec, execSneReg]

/-! ### Who touches the stack -/

theorem eq_of_stack_mem_partsOf {i : Instr} (h : Part.stack ∈ partsOf i) : i = .ret ∨ ∃ nnn, i = .call nnn := by
  cases i <;> simp [partsOf] at h ⊢

/-- A return leaves every slot as it is, the popped one too (R101). -/
theorem exec_ret_stack {s t : State} (h : exec .ret s = .next t) : t.stack = s.stack := by
  rcases execRet_cases s with ⟨_, e⟩ | ⟨_, e⟩ <;> cases Host.Outcome.next.inj (e.symm.trans h)
  · exact s.latch_stack _
  · rfl

/-! ### The obligations -/

/-- Settles O19: the call with room writes slot SP, SP and pc. -/
theorem callPushesReturnAddress : Obligations.CallPushesReturnAddress := by
  unfold Obligations.CallPushesReturnAddress
  refine fun nnn s => ⟨decode_wordCNNN rfl rfl, fun h => ?_⟩
  have e := exec_call_room nnn h
  refine ⟨_, e, addrOperand_toNat nnn, rfl, fun k => ?_,
    (exec_unchanged_of_fault e rfl).mono (by simp [partsOf])⟩
  simp only [Vector.getElem_set, eq_comm]

/-- Settles O20: the return with an entry on the stack writes SP and pc. -/
theorem returnPopsIntoPc : Obligations.ReturnPopsIntoPc := by
  unfold Obligations.ReturnPopsIntoPc
  refine fun s => ⟨by decide, fun h => ?_⟩
  have e := exec_ret_entry h
  refine ⟨_, e, rfl, fun k hk => ?_, fun k => rfl, (exec_unchanged_of_fault e rfl).mono (by simp [partsOf])⟩
  simp only [hk]

/-- Settles O21: the return pops the slot that the call has pushed. -/
theorem callThenReturnResumesAfterCall : Obligations.CallThenReturnResumesAfterCall := by
  unfold Obligations.CallThenReturnResumesAfterCall
  rintro nnn s t u hroom h ⟨hsp, hstack⟩
  obtain ⟨-, hcall⟩ := callPushesReturnAddress nnn s
  obtain ⟨t', e, -, htsp, hslot, -⟩ := hcall hroom
  obtain rfl := Host.Outcome.next.inj (e.symm.trans h)
  have husp : u.sp.val = s.sp.val + 1 := (congrArg Fin.val hsp).trans htsp
  obtain ⟨-, hret⟩ := returnPopsIntoPc u
  obtain ⟨v, e', hvsp, hpc, -⟩ := hret (by omega)
  refine ⟨v, e', ?_, Fin.ext (by omega)⟩
  rw [hpc ⟨s.sp.val, hroom⟩ (by simp only; omega), hstack, hslot, if_pos rfl]

/-- Settles O23: both skips compare the same two bytes, and only pc takes the advance. -/
theorem skipsOnRegister : Obligations.SkipsOnRegister := by
  unfold Obligations.SkipsOnRegister
  intro x y s
  simp only [BitVec.toNat_inj]
  exact ⟨decode_word5XYN x y 0, decode_word9XYN x y 0,
    fun n hn => ⟨(decode_word5XYN x y n).trans (if_neg hn), (decode_word9XYN x y n).trans (if_neg hn)⟩,
    ⟨_, exec_seReg x y s, rfl, unchanged_setPc s _⟩, ⟨_, exec_sneReg x y s, rfl, unchanged_setPc s _⟩⟩

/-- Settles O24: the call and the return alone have the stack among what they may change, and the return writes
no slot. -/
theorem stackTouchedOnlyByCallAndReturn : Obligations.StackTouchedOnlyByCallAndReturn := by
  unfold Obligations.StackTouchedOnlyByCallAndReturn
  intro i s t h
  by_cases hm : Part.stack ∈ partsOf i
  · refine ⟨fun _ => eq_of_stack_mem_partsOf hm, fun k hk => ?_⟩
    rcases eq_of_stack_mem_partsOf hm with rfl | hcall
    · exact absurd (by rw [exec_ret_stack h]) hk
    · exact hcall
  · obtain ⟨hsp, hstack⟩ := exec_unchanged h .stack hm
    exact ⟨fun hne => absurd hsp hne, fun k hne => absurd (hstack k) hne⟩

end Sys2Proof.Machine
end

section
/-! SUPPORT. The flag instructions and the random byte: the transition the flag instructions share, and which
registers an instruction may change (42_alu.md R127 to R132, 43_index_memory.md R142, 10_state.md R22, R38). -/

namespace Sys2Proof.Machine

/-! ### Flags and results as numbers -/

theorem flagByte_decide_toNat (p : Prop) [Decidable p] :
    (flagByte (decide p)).toNat = if p then 1 else 0 := by
  by_cases h : p <;> simp [flagByte, h]

theorem flagByte_eq_zero_or_one (f : Bool) : flagByte f = 0#8 ∨ flagByte f = 1#8 := by
  cases f <;> simp [flagByte]

theorem flagByte_shiftedOutRight_toNat (b : Byte) : (flagByte (shiftedOutRight b)).toNat = b.toNat % 2 := by
  revert b; decide

theorem flagByte_shiftedOutLeft_toNat (b : Byte) : (flagByte (shiftedOutLeft b)).toNat = b.toNat / 128 := by
  revert b; decide

theorem sub_toNat (a b : Byte) : (a - b).toNat = (a.toNat + 256 - b.toNat) % 256 := by
  have := b.isLt
  rw [BitVec.toNat_sub]
  omega

theorem State.shiftSource_toNat (s : State) (x y : Reg) :
    (s.shiftSource x y).toNat = if s.dialect = .schip then s.regNat x else s.regNat y := by
  unfold State.shiftSource
  cases s.dialect <;> rfl

/-! ### The transition -/

/-- An instruction that completes after writing a result into `V[X]` and then a flag into VF leaves both, the flag
alone with X = 15 (42_alu.md R120), advances pc by 2 and keeps the rest. -/
theorem exists_next_of_exec_setResult {i : Instr} {s : State} {x : Reg} {b : Byte} {f : Bool} {n m : Nat}
    (e : exec i s = complete .next (s.setResult x b f)) (hb : b.toNat = n) (hf : (flagByte f).toNat = m) :
    ∃ t, exec i s = .next t ∧ (x ≠ 15 → t.regNat x = n) ∧ t.regNat 15 = m ∧ t.pc = s.pc + 2 ∧
      RegsUnchangedExcept [x, 15] s t ∧ UnchangedExcept [.regs, .pc] s t := by
  refine ⟨_, e, fun hx => ?_, ?_, rfl, fun r hr => ?_, ?_⟩
  · simp [hx, hb]
  · simp [hf]
  · obtain ⟨hx, h15⟩ : r ≠ x ∧ r ≠ 15 := by simpa using hr
    simp [hx, h15]
  · exact ((unchanged_setResult s x b f).mono (by simp)).trans ((unchanged_setPc _ _).mono (by simp))

/-! ### Which registers change (10_state.md R38) -/

/-- A register that is not a destination, nor VF under a flag, is as before. -/
theorem exec_reg_unchanged {i : Instr} {s t : State} {r : Reg} (h : exec i s = .next t)
    (hdest : r ∉ i.destRegs) (hflag : i.writesFlag = true → r ≠ 15) : t.reg r = s.reg r := by
  cases i with
  | ldImm x nn | addImm x nn | ldReg x y | or x y | and x y | xor x y | rnd x nn | ldVxDt x =>
    cases Host.Outcome.next.inj h
    have hx : r ≠ x := by simpa [Instr.destRegs] using hdest
    simp [hx]
  | addReg x y | sub x y | shr x y | subn x y | shl x y =>
    cases Host.Outcome.next.inj h
    have hx : r ≠ x := by simpa [Instr.destRegs] using hdest
    simp [hx, hflag rfl]
  | addI x =>
    cases Host.Outcome.next.inj h
    simp [hflag rfl]
  | ldVxK x =>
    have hx : r ≠ x := by simpa [Instr.destRegs] using hdest
    rcases execLdVxK_cases x s with ⟨_, e⟩ | ⟨_, _, _, e, _⟩ <;>
      cases Host.Outcome.next.inj (e.symm.trans h) <;> simp [hx]
  | drw x y n =>
    rcases execDrw_cases x y n s with ⟨_, e⟩ | ⟨_, e⟩ <;> cases Host.Outcome.next.inj (e.symm.trans h)
    · simp
    · simp [hflag rfl]
  | ldRegs x =>
    have hx : ¬ r ≤ x := by simpa [Instr.destRegs] using hdest
    rcases execLdRegs_cases x s with ⟨_, e⟩ | ⟨_, e⟩ <;> cases Host.Outcome.next.inj (e.symm.trans h)
    · simp
    · exact (State.reg_loadRegs s s x r s.base).trans (if_neg hx)
  | _ => exact exec_unchanged h .regs (by simp [partsOf]) r

/-- A flag instruction that completed has left a flag in VF, also with X = 15 (10_state.md R22). -/
theorem exec_flag {i : Instr} {s t : State} (h : exec i s = .next t) (hi : i.writesFlag = true)
    (ht : t.fault = none) : t.reg 15 = 0 ∨ t.reg 15 = 1 := by
  cases i with
  | addReg x y | sub x y | shr x y | subn x y | shl x y | addI x =>
    cases Host.Outcome.next.inj h
    simp [flagByte_eq_zero_or_one]
  | drw x y n =>
    rcases execDrw_cases x y n s with ⟨_, e⟩ | ⟨_, e⟩ <;> cases Host.Outcome.next.inj (e.symm.trans h)
    · cases ht
    · simp [flagByte_eq_zero_or_one]
  | _ => cases hi

/-! ### The obligations -/

/-- Settles O29: the result is the reduced sum of the old values, the flag the carry of the unreduced one. -/
theorem addRegistersWithCarry : Obligations.AddRegistersWithCarry := by
  unfold Obligations.AddRegistersWithCarry
  exact fun x y s => ⟨decode_wordCXYN rfl rfl,
    exists_next_of_exec_setResult rfl (BitVec.toNat_ofNat _ 8) (flagByte_decide_toNat _)⟩

/-- Settles O30: both differences and both comparisons are of the old values. -/
theorem subtractionsWithNoBorrow : Obligations.SubtractionsWithNoBorrow := by
  unfold Obligations.SubtractionsWithNoBorrow
  exact fun x y s =>
    ⟨⟨decode_wordCXYN rfl rfl, exists_next_of_exec_setResult rfl (sub_toNat _ _) (flagByte_decide_toNat _)⟩,
      ⟨decode_wordCXYN rfl rfl, exists_next_of_exec_setResult rfl (sub_toNat _ _) (flagByte_decide_toNat _)⟩⟩

/-- Settles O31: a shift halves or doubles the dialect's source, and the bit shifted out is the remainder or the
carry. -/
theorem shiftsOfTheDialectsSource : Obligations.ShiftsOfTheDialectsSource := by
  unfold Obligations.ShiftsOfTheDialectsSource
  rintro x y s src hsrc
  rw [← State.shiftSource_toNat] at hsrc
  subst hsrc
  refine ⟨⟨decode_wordCXYN rfl rfl,
      exists_next_of_exec_setResult rfl ?_ (flagByte_shiftedOutRight_toNat _)⟩,
    ⟨decode_wordCXYN rfl rfl, exists_next_of_exec_setResult rfl ?_ (flagByte_shiftedOutLeft_toNat _)⟩⟩
  · rw [BitVec.toNat_ushiftRight, Nat.shiftRight_eq_div_pow, pow_one]
  · rw [BitVec.toNat_shiftLeft, Nat.shiftLeft_eq, pow_one, Nat.mul_comm]

/-- Settles O32: the mask leaves no bit outside NN, whatever byte is drawn. -/
theorem randomByteIsMasked : Obligations.RandomByteIsMasked := by
  unfold Obligations.RandomByteIsMasked
  refine fun x nn s => ⟨decode_wordCXNN rfl rfl, ?_⟩
  obtain ⟨t, e, frame⟩ := exec_frame (.rnd x nn) s
  have hregs : RegsUnchangedExcept [x] s t := fun r hr => exec_reg_unchanged e hr (by simp [Instr.writesFlag])
  have hx : t.reg x = Config.randomByte s.draws &&& nn := by
    cases Host.Outcome.next.inj e
    exact (s.drawByte.2.reg_setReg x x _).trans (if_pos rfl)
  obtain ⟨hdraws, hpc⟩ : t.draws = s.draws + 1 ∧ t.pc = s.pc + 2 := by
    cases Host.Outcome.next.inj e
    exact ⟨rfl, rfl⟩
  refine ⟨t, e, hx, ?_, hdraws, hpc, hregs, frame⟩
  rw [hx, BitVec.and_assoc, BitVec.and_not_self]
  exact BitVec.and_zero

/-- Settles O33: VF is a register like any other, and the flag is written last. -/
theorem vfWrittenOnlyAsFlagOrDestination : Obligations.VfWrittenOnlyAsFlagOrDestination := by
  unfold Obligations.VfWrittenOnlyAsFlagOrDestination
  refine fun i s t h => ⟨fun hne => ?_, fun hi _ ht => ?_⟩
  · by_contra hno
    obtain ⟨hflag, hdest⟩ := not_or.1 hno
    exact hne (exec_reg_unchanged h hdest fun hf => absurd hf hflag)
  · exact exec_flag h hi ht

/-- Settles O34: the contrapositive of `exec_reg_unchanged`. -/
theorem registersChangeOnlyAsDestinations : Obligations.RegistersChangeOnlyAsDestinations := by
  unfold Obligations.RegistersChangeOnlyAsDestinations
  intro i s t r h hne
  by_contra hno
  obtain ⟨hdest, hflag⟩ := not_or.1 hno
  exact hne (exec_reg_unchanged h hdest fun hf hr => hflag ⟨hf, hr⟩)

/-- Settles O37: the sum wraps at 16 bits, and the flag is of the unreduced one. -/
theorem addToIndex : Obligations.AddToIndex := by
  unfold Obligations.AddToIndex
  refine fun x s => ⟨decode_wordCXNN rfl rfl, ?_⟩
  obtain ⟨t, e, frame⟩ := exec_frame (.addI x) s
  have hregs : RegsUnchangedExcept [15] s t := fun r hr =>
    exec_reg_unchanged e (by simp [Instr.destRegs]) fun _ => List.mem_singleton.not.1 hr
  cases Host.Outcome.next.inj e
  refine ⟨_, e, ?_, ?_, rfl, hregs, frame⟩
  · simp [BitVec.toNat_add]
  · simp [indexOverflow, flagByte_decide_toNat]

end Sys2Proof.Machine
end

section
/-! SUPPORT. The canonical form of memory determines its cells, and the three transfers between registers and
memory: what they answer in range (20_memory.md R51, R55, 43_index_memory.md R144 to R146). -/

namespace Sys2Proof.Machine

/-! ### The canonical form (10_state.md R37, log 19) -/

/-- With addresses rising, the cell found at an address is the one listed there. -/
theorem Memory.lookup_eq_some_iff {m : Memory} (h : m.Pairwise fun c d => c.1 < d.1) (a : Nat) (b : Byte) :
    Memory.lookup m a = some b ↔ (a, b) ∈ m := by
  induction m with
  | nil => simp
  | cons c m ih =>
    obtain ⟨hc, hm⟩ := List.pairwise_cons.1 h
    rw [Memory.lookup, List.mem_cons]
    by_cases hca : c.1 = a
    · have hnot : (a, b) ∉ m := fun hab => absurd (hc _ hab) (by simp [hca])
      rw [if_pos hca, or_iff_left hnot]
      simp [Prod.ext_iff, hca, eq_comm]
    · have hne : (a, b) ≠ c := fun e => hca (by rw [← e])
      rw [if_neg hca, or_iff_right hne]
      exact ih hm

/-- In canonical form the cells are the addresses that do not read as Reset leaves them. -/
theorem Memory.mem_iff_read {font : Font} {m : Memory} (h : Memory.wf font m) (c : Host.Cell) :
    c ∈ m ↔ Memory.read font m c.1 = c.2 ∧ c.2 ≠ Memory.unlisted font c.1 := by
  obtain ⟨hrising, hcells⟩ := h
  have hlisted : Memory.lookup m c.1 = some c.2 ↔ c ∈ m := Memory.lookup_eq_some_iff hrising c.1 c.2
  rw [← hlisted, Memory.read]
  constructor
  · intro hl
    exact ⟨by rw [hl]; rfl, (hcells c (hlisted.1 hl)).2⟩
  · rintro ⟨hr, hne⟩
    cases hl : Memory.lookup m c.1 with
    | none => rw [hl] at hr; exact absurd hr.symm hne
    | some b => rw [hl] at hr; exact congrArg some hr

/-! ### The bytes transferred -/

theorem State.byteAt_storeBytes_add (s : State) (a : Nat) {bs : List Byte} {k : Nat} (hk : k < bs.length) :
    (s.storeBytes a bs).byteAt (a + k) = bs.getD k 0 := by
  rw [State.byteAt_storeBytes, if_pos (by omega), Nat.add_sub_cancel_left]

theorem bcdDigits_getD_toNat (b : Byte) :
    ((bcdDigits b).getD 0 0).toNat = b.toNat / 100 ∧ ((bcdDigits b).getD 1 0).toNat = b.toNat / 10 % 10 ∧
      ((bcdDigits b).getD 2 0).toNat = b.toNat % 10 := by
  have := b.isLt
  refine ⟨?_, ?_, ?_⟩ <;> exact (BitVec.toNat_ofNat _ 8).trans (Nat.mod_eq_of_lt (by omega))

theorem regsUpTo_getElem? {x k : Reg} (h : k ≤ x) : (regsUpTo x)[k.val]? = some k := by
  revert x k; decide

theorem map_reg_regsUpTo_getD (s : State) {x k : Reg} (h : k ≤ x) :
    ((regsUpTo x).map s.reg).getD k.val 0 = s.reg k := by
  rw [List.getD_eq_getElem?_getD, List.getElem?_map, regsUpTo_getElem? h]
  rfl

/-- `I` after a transfer: moved past it in `cosmac`, modulo 65536, and unchanged in `schip` (R145, R146). -/
theorem State.indexAfterTransfer_toNat (s : State) (x : Reg) :
    (s.indexAfterTransfer x).toNat =
      if s.dialect = .cosmac then (s.i.toNat + x.val + 1) % 65536 else s.i.toNat := by
  have := x.isLt
  unfold State.indexAfterTransfer
  cases s.dialect with
  | schip => rfl
  | cosmac =>
    rw [if_pos rfl, BitVec.toNat_add, BitVec.toNat_ofNat]
    omega

/-! ### What the transfers answer in range -/

/-- `FX33` in range: the three digits, and pc and memory the only parts changed. -/
theorem exec_ldB_in {x : Reg} {s : State} (h : s.i.toNat + 2 ≤ 0xFFF) :
    ∃ t, exec (.ldB x) s = .next t ∧ (∀ k < 3, t.byteAt (s.i.toNat + k) = (bcdDigits (s.reg x)).getD k 0) ∧
      t.pc = s.pc + 2 ∧ UnchangedExcept [.memory, .pc] s t := by
  have e : exec (.ldB x) s = complete .next (s.storeBytes s.base (bcdDigits (s.reg x))) :=
    ((execLdB_cases x s).resolve_left fun ⟨hout, _⟩ =>
      absurd (show 4096 < s.i.toNat + 3 from hout) (by omega)).2
  exact ⟨_, e, fun k hk => s.byteAt_storeBytes_add s.base hk, by simp,
    (exec_unchanged_of_fault e (by simp)).mono (by simp [partsOf])⟩

theorem exec_stRegs_in {x : Reg} {s : State} (h : s.i.toNat + x.val ≤ 0xFFF) :
    exec (.stRegs x) s = complete .next
      ((s.storeBytes s.base ((regsUpTo x).map s.reg)).setI (s.indexAfterTransfer x)) :=
  ((execStRegs_cases x s).resolve_left fun ⟨hout, _⟩ =>
    absurd (show 4096 < s.i.toNat + (x.val + 1) from hout) (by omega)).2

theorem exec_ldRegs_in {x : Reg} {s : State} (h : s.i.toNat + x.val ≤ 0xFFF) :
    exec (.ldRegs x) s = complete .next
      ((s.setRegs ((regsUpTo x).zip (s.loadBytes s.base (x.val + 1)))).setI (s.indexAfterTransfer x)) :=
  ((execLdRegs_cases x s).resolve_left fun ⟨hout, _⟩ =>
    absurd (show 4096 < s.i.toNat + (x.val + 1) from hout) (by omega)).2

/-! ### The obligations -/

/-- Settles O43: both memories list the addresses that read other than after Reset, in rising order. -/
theorem canonicalMemoriesReadAlikeAreEqual : Obligations.CanonicalMemoriesReadAlikeAreEqual := by
  unfold Obligations.CanonicalMemoriesReadAlikeAreEqual
  intro font m m' h h' hread
  have : Std.Irrefl fun c d : Host.Cell => c.1 < d.1 := ⟨fun c => lt_irrefl c.1⟩
  have : Std.Antisymm fun c d : Host.Cell => c.1 < d.1 := ⟨fun c d hcd hdc => absurd hcd hdc.not_gt⟩
  refine List.Pairwise.eq_of_mem_iff h.1 h'.1 fun c => ?_
  rw [Memory.mem_iff_read h, Memory.mem_iff_read h', hread]

/-- Settles O38: the three bytes stored are the digits, each below 10, and nothing outside them changes. -/
theorem storeDecimalDigits : Obligations.StoreDecimalDigits := by
  unfold Obligations.StoreDecimalDigits
  refine fun x s => ⟨decode_wordCXNN rfl rfl, fun h => ?_⟩
  obtain ⟨t, e, hbytes, hpc, frame⟩ := exec_ldB_in (x := x) h
  obtain ⟨d0, d1, d2⟩ := bcdDigits_getD_toNat (s.reg x)
  have h0 : (t.byteAt s.i.toNat).toNat = s.regNat x / 100 := (congrArg _ (hbytes 0 (by omega))).trans d0
  have h1 : (t.byteAt (s.i.toNat + 1)).toNat = s.regNat x / 10 % 10 :=
    (congrArg _ (hbytes 1 (by omega))).trans d1
  have h2 : (t.byteAt (s.i.toNat + 2)).toNat = s.regNat x % 10 := (congrArg _ (hbytes 2 (by omega))).trans d2
  exact ⟨t, e, h0, h1, h2, by omega, fun a ha => exec_bytesUnchangedOutside e a ha, hpc, frame⟩

/-- Settles O39: the byte at offset `k` is the `k`-th of the registers stored. -/
theorem storeRegisters : Obligations.StoreRegisters := by
  unfold Obligations.StoreRegisters
  refine fun x s => ⟨decode_wordCXNN rfl rfl, fun h => ?_⟩
  have e := exec_stRegs_in (x := x) h
  refine ⟨_, e, fun k hk => ?_, fun a ha => ?_, s.indexAfterTransfer_toNat x, by simp, ?_⟩
  · exact (s.byteAt_storeBytes_add s.base (by simpa using Nat.lt_succ_of_le hk)).trans
      (map_reg_regsUpTo_getD s hk)
  · exact exec_bytesUnchangedOutside e a ha
  · exact (exec_unchanged_of_fault e (by simp)).mono (by simp [partsOf])

/-- Settles O40: register `k` up to X takes the byte at offset `k`, and no other register is written. -/
theorem loadRegisters : Obligations.LoadRegisters := by
  unfold Obligations.LoadRegisters
  refine fun x s => ⟨decode_wordCXNN rfl rfl, fun h => ?_⟩
  have e := exec_ldRegs_in (x := x) h
  have hreg := s.reg_loadRegs s x (a := s.base)
  refine ⟨_, e, fun k hk => (hreg k).trans (if_pos hk), fun k hk => (hreg k).trans (if_neg hk.not_ge),
    s.indexAfterTransfer_toNat x, ?_, ?_⟩
  · rw [State.setRegs_eq]; rfl
  · exact (exec_unchanged_of_fault e (by simp)).mono (by simp [partsOf])

/-- Settles O41: the load reads the addresses that the store has written. -/
theorem storeThenLoadRestoresRegisters : Obligations.StoreThenLoadRestoresRegisters := by
  unfold Obligations.StoreThenLoadRestoresRegisters
  intro x s t u hin h hmem hi
  obtain ⟨-, hstore⟩ := storeRegisters x s
  obtain ⟨t', e, hstored, -⟩ := hstore hin
  obtain rfl := Host.Outcome.next.inj (e.symm.trans h)
  obtain ⟨-, hload⟩ := loadRegisters x u
  obtain ⟨v, e', hloaded, -⟩ := hload (by rwa [hi])
  refine ⟨v, e', fun k hk => ?_⟩
  rw [hloaded k hk, hmem, hi, hstored k hk]

end Sys2Proof.Machine
end

section
/-! SUPPORT. The sprite draw: the pixels a sprite draws on, and what the draw answers in range (44_display.md
R151). -/

namespace Sys2Proof.Machine

/-! ### The pixels a sprite draws on -/

theorem placePixel_wrap_iff {cx cy : Nat} {p : Pixel} :
    placePixel .wrap cx cy = some p ↔ p.1.val = cx % 64 ∧ p.2.val = cy % 32 := by
  simp [placePixel, Prod.ext_iff, Fin.ext_iff, eq_comm]

theorem placePixel_clip_iff {cx cy : Nat} {p : Pixel} :
    placePixel .clip cx cy = some p ↔ p.1.val = cx ∧ p.2.val = cy := by
  have h1 := p.1.isLt
  have h2 := p.2.isLt
  by_cases h : cx < 64 ∧ cy < 32
  · simp [placePixel, h, Prod.ext_iff, Fin.ext_iff, eq_comm]
  · simp only [placePixel, dif_neg h, reduceCtorEq, false_iff]
    omega

/-- The pixels a sprite draws on are those of the model's list of its pixels. -/
theorem State.drawsOn_iff_mem (s : State) (x y : Reg) (n : Nat) (p : Pixel) :
    s.DrawsOn x y n p ↔
      p ∈ spritePixels s.wrapMode (s.originX x) (s.originY y) (s.loadBytes s.base n) := by
  rw [mem_spritePixels, State.loadBytes_length]
  refine exists_congr fun r => exists_congr fun b => and_congr_right fun hr => and_congr_right fun _ => ?_
  rw [State.loadBytes_getD s s.base n r hr]
  refine and_congr_right fun _ => ?_
  cases s.wrapMode with
  | wrap => exact placePixel_wrap_iff.symm
  | clip => exact placePixel_clip_iff.symm

/-- Where a sprite draws depends on `I`, the bytes, `WRAP_MODE` and the reduced origin alone. -/
theorem State.drawsOn_congr {s t : State} {x y x' y' : Reg} (hi : t.i = s.i)
    (hb : ∀ a, t.byteAt a = s.byteAt a) (hw : t.wrapMode = s.wrapMode)
    (hx : t.regNat x' % 64 = s.regNat x % 64) (hy : t.regNat y' % 32 = s.regNat y % 32) (n : Nat) (p : Pixel) :
    t.DrawsOn x' y' n p ↔ s.DrawsOn x y n p := by
  unfold State.DrawsOn State.spriteBit State.base
  rw [hi, hw, hx, hy]
  simp only [hb]

/-! ### What the draw answers in range -/

theorem exec_drw_in {x y : Reg} {n : Nat} {s : State} (h : n = 0 ∨ s.i.toNat + n - 1 ≤ 0xFFF) :
    exec (.drw x y n) s = complete .next (((s.setPix
      (drawSprite s.wrapMode (s.originX x) (s.originY y) (s.loadBytes s.base n) s.pix).1).setFlag
      (drawSprite s.wrapMode (s.originX x) (s.originY y) (s.loadBytes s.base n) s.pix).2).setRedraw true) :=
  ((execDrw_cases x y n s).resolve_left fun ⟨⟨hn, hout⟩, _⟩ =>
    absurd (show 4096 < s.i.toNat + n from hout) (by omega)).2

/-- A sprite in range toggles the pixels it draws on, and VF says whether one of them was lit. -/
theorem exec_drw_spec {x y : Reg} {n : Nat} {s : State} (hn : n < 16) (h : n = 0 ∨ s.i.toNat + n - 1 ≤ 0xFFF) :
    ∃ t f, exec (.drw x y n) s = .next t ∧ (∀ p, s.DrawsOn x y n p → t.pixel p = !s.pixel p) ∧
      (∀ p, ¬ s.DrawsOn x y n p → t.pixel p = s.pixel p) ∧ t.reg 15 = flagByte f ∧
      (f = true ↔ ∃ p, s.DrawsOn x y n p ∧ s.pixel p = true) ∧ t.redraw = true ∧ t.pc = s.pc + 2 ∧
      t.fault = s.fault := by
  obtain ⟨hpix, hflag⟩ := drawSprite_spec s.wrapMode (s.originX x) (s.originY y) (s.loadBytes s.base n) s.pix
    (by rw [State.loadBytes_length]; omega)
  simp only [← State.drawsOn_iff_mem] at hflag
  refine ⟨_, _, exec_drw_in h, fun p hp => ?_, fun p hp => ?_, by simp, hflag, rfl, rfl, rfl⟩
  · exact (hpix p).trans (by simp [(s.drawsOn_iff_mem x y n p).1 hp, State.pixel])
  · exact (hpix p).trans (by simp [mt (s.drawsOn_iff_mem x y n p).2 hp, State.pixel])

/-! ### The obligations -/

/-- Settles O45: the model's list of a sprite's pixels holds exactly those it draws on. -/
theorem drawSpritePixelByPixel : Obligations.DrawSpritePixelByPixel := by
  unfold Obligations.DrawSpritePixelByPixel
  intro x y n s hn
  have hrows : (BitVec.ofNat 4 n).toNat = n := Nat.mod_eq_of_lt hn
  refine ⟨decode_wordCXYN (decide_eq_true hn) (by rw [hrows]; rfl), fun h => ?_⟩
  obtain ⟨t, f, e, hon, hoff, hvf, hf, hredraw, hpc, hfault⟩ := exec_drw_spec (x := x) (y := y) hn h
  refine ⟨t, e, hon, hoff, fun hlit => ?_, fun hdark => ?_, hredraw, hpc, fun r hr => ?_,
    (exec_unchanged_of_fault e hfault).mono (by simp [partsOf])⟩
  · rw [State.regNat_eq, hvf, hf.2 hlit]; rfl
  · have hno : f = false := by
      by_contra hne
      obtain ⟨p, hp, hlit⟩ := hf.1 (by simpa using hne)
      rw [hdark p hp] at hlit
      cases hlit
    rw [State.regNat_eq, hvf, hno]; rfl
  · exact exec_reg_unchanged e (by simp [Instr.destRegs]) fun _ => List.mem_singleton.not.1 hr

/-- Settles O46: the second draw toggles the same pixels, so it restores them, and it finds lit exactly those that
the first lit. -/
theorem drawTwiceRestoresDisplay : Obligations.DrawTwiceRestoresDisplay := by
  unfold Obligations.DrawTwiceRestoresDisplay
  intro x y x' y' n s t hn hin h hx hy
  obtain ⟨-, hdraw⟩ := drawSpritePixelByPixel x y n s hn
  obtain ⟨t', e, hon, hoff, -, -, -, -, -, frame⟩ := hdraw hin
  obtain rfl := Host.Outcome.next.inj (e.symm.trans h)
  have hi : t'.i = s.i := frame .index (by simp)
  obtain ⟨-, -, hw, -⟩ := frame .settings (by simp)
  have hsame (p : Pixel) : t'.DrawsOn x' y' n p ↔ s.DrawsOn x y n p :=
    State.drawsOn_congr hi (frame .memory (by simp)) hw hx hy n p
  obtain ⟨-, hdraw'⟩ := drawSpritePixelByPixel x' y' n t' hn
  obtain ⟨u, e', hon', hoff', hlit, hdark, -⟩ := hdraw' (by rwa [hi])
  simp only [hsame] at hon' hoff' hlit hdark
  refine ⟨u, e', fun p => ?_, ?_⟩
  · by_cases hp : s.DrawsOn x y n p
    · rw [hon' p hp, hon p hp, Bool.not_not]
    · rw [hoff' p hp, hoff p hp]
  · constructor
    · intro hvf
      by_contra hno
      have hzero := hdark fun p hp => by
        by_contra hne
        have ht : t'.pixel p = true := by simpa using hne
        exact hno ⟨p, by simpa [hon p hp] using ht, ht⟩
      omega
    · rintro ⟨p, hs, ht⟩
      refine hlit ⟨p, ?_, ht⟩
      by_contra hp
      rw [hoff p hp, hs] at ht
      cases ht

end Sys2Proof.Machine
end

section
/-! SUPPORT. The key and timer instructions: what they answer (45_keys_timers.md R160 to R165). -/

namespace Sys2Proof.Machine

/-! ### The key tests (R160, R161) -/

theorem exec_skp_key {x k : Reg} {s : State} (h : s.regNat x = k.val) :
    exec (.skp x) s = .next (s.setPc (s.pc + if s.keyDown k = true then 4 else 2)) := by
  obtain ⟨hlt, e⟩ := (execSkp_cases x s).resolve_left fun ⟨hout, _⟩ => by omega
  obtain rfl : (⟨s.regNat x, hlt⟩ : Reg) = k := Fin.ext h
  rw [← skipIf_bytes]
  exact e

theorem exec_sknp_key {x k : Reg} {s : State} (h : s.regNat x = k.val) :
    exec (.sknp x) s = .next (s.setPc (s.pc + if s.keyDown k = true then 2 else 4)) := by
  obtain ⟨hlt, e⟩ := (execSknp_cases x s).resolve_left fun ⟨hout, _⟩ => by omega
  obtain rfl : (⟨s.regNat x, hlt⟩ : Reg) = k := Fin.ext h
  refine e.trans ?_
  cases s.keyDown ⟨s.regNat x, hlt⟩ <;> simp

/-! ### The wait for a key (R162) -/

theorem keyNumber_toNat (k : Reg) : (keyNumber k).toNat = k.val := by
  revert k; decide

theorem exec_ldVxK_none {x : Reg} {s : State} (h : ∀ k, s.keyDown k = false) :
    exec (.ldVxK x) s = .next s := by
  obtain ⟨-, e⟩ := (execLdVxK_cases x s).resolve_right fun ⟨k, ks, _, _, hdown⟩ => by simp [h] at hdown
  exact e.trans (by simp [State.setPc])

/-- With a key down the wait completes with one that is down, whichever is drawn. -/
theorem exec_ldVxK_some {x : Reg} {s : State} (h : ∃ k, s.keyDown k = true) :
    ∃ t k, exec (.ldVxK x) s = .next t ∧ s.keyDown k = true ∧ t.reg x = keyNumber k ∧
      t.draws = s.draws + 1 ∧ t.pc = s.pc + 2 := by
  obtain ⟨k, hk⟩ := h
  obtain ⟨k', ks, -, e, hdown⟩ := (execLdVxK_cases x s).resolve_left fun ⟨hno, _⟩ => by simp [hno] at hk
  exact ⟨_, _, e, hdown, (State.reg_setReg _ x x _).trans (if_pos rfl), rfl, rfl⟩

/-! ### The timer writes and the sound output (R164, R165, 10_state.md R34) -/

theorem exec_ldDtVx (x : Reg) (s : State) :
    ∃ t, exec (.ldDtVx x) s = .next t ∧ t.dt = s.reg x ∧ t.pc = s.pc + 2 ∧
      UnchangedExcept [.delay, .pc] s t := by
  obtain ⟨t, e, frame⟩ := exec_frame (.ldDtVx x) s
  cases Host.Outcome.next.inj e
  exact ⟨_, e, rfl, rfl, frame⟩

theorem exec_ldStVx (x : Reg) (s : State) :
    ∃ t, exec (.ldStVx x) s = .next t ∧ t.st = s.reg x ∧ t.pc = s.pc + 2 ∧
      UnchangedExcept [.sound, .pc] s t := by
  obtain ⟨t, e, frame⟩ := exec_frame (.ldStVx x) s
  cases Host.Outcome.next.inj e
  exact ⟨_, e, rfl, rfl, frame⟩

theorem State.sound_iff (s : State) : s.sound = true ↔ s.st.toNat ≠ 0 := by
  simp [State.sound, ← BitVec.toNat_inj]

/-! ### The obligations -/

/-- Settles O48: a byte that is a key number selects that key, and the two skips test it complementarily. -/
theorem skipsOnKey : Obligations.SkipsOnKey := by
  unfold Obligations.SkipsOnKey
  exact fun x k s => ⟨decode_wordCXNN rfl rfl, decode_wordCXNN rfl rfl, fun h =>
    ⟨⟨_, exec_skp_key h, rfl, unchanged_setPc s _⟩, ⟨_, exec_sknp_key h, rfl, unchanged_setPc s _⟩⟩⟩

/-- Settles O49: with no key down nothing is done; otherwise the key drawn is among those down. -/
theorem waitForKey : Obligations.WaitForKey := by
  unfold Obligations.WaitForKey
  refine fun x s => ⟨decode_wordCXNN rfl rfl,
    fun h => ⟨s, exec_ldVxK_none h, UnchangedExcept.refl _ s⟩, fun h => ?_⟩
  obtain ⟨t, k, e, hdown, hx, hdraws, hpc⟩ := exec_ldVxK_some (x := x) h
  have hnum : t.regNat x = k.val := by rw [State.regNat_eq, hx, keyNumber_toNat]
  exact ⟨t, k, e, hdown, hnum, hdraws, hpc,
    fun r hr => exec_reg_unchanged e hr (by simp [Instr.writesFlag]), exec_unchanged e⟩

/-- Settles O51: the write is the instruction's, and the tick that ends the step takes one from what was
written. -/
theorem setTimers : Obligations.SetTimers := by
  unfold Obligations.SetTimers
  refine fun x s => ⟨⟨decode_wordCXNN rfl rfl, exec_ldDtVx x s, fun he hf => ?_⟩,
    ⟨decode_wordCXNN rfl rfl, exec_ldStVx x s, fun he hf => ?_⟩⟩
  · obtain ⟨u, e, hdt, -, frame⟩ := exec_ldDtVx x (s.setRedraw false)
    have hfault : u.fault = none := Eq.trans (frame .fault (by simp)) he.2
    refine ⟨_, step_of_exec_next he hf e, ?_⟩
    rw [State.endOfStep_dt_toNat hfault, hdt, State.reg_setRedraw]
  · obtain ⟨u, e, hst, -, frame⟩ := exec_ldStVx x (s.setRedraw false)
    have hfault : u.fault = none := Eq.trans (frame .fault (by simp)) he.2
    have htick : u.endOfStep.st.toNat = s.regNat x - 1 := by
      rw [State.endOfStep_st_toNat hfault, hst, State.reg_setRedraw]
    refine ⟨_, step_of_exec_next he hf e, htick, ?_⟩
    rw [State.sound_iff, htick]
    omega

end Sys2Proof.Machine
end

section
/-! SUPPORT. The settings replaced under a state: what does not read them commutes with it (10_state.md R31). And
what Reset, LoadROM and Configure leave (70_reset_and_hazards.md R191 to R194). -/

namespace Sys2Proof.Machine

/-! ### Other settings under a state -/

/-- The state with other settings, and everything else the same. -/
def State.setSettings (s : State) (m : WrapMode) (d : Dialect) : State := { s with wrapMode := m, dialect := d }

/-- What an instruction answered, with other settings in its next state. -/
def Result.setSettings (m : WrapMode) (d : Dialect) : Result → Result
  | .next t => .next (t.setSettings m d)
  | .fault f => .fault f
  | .refused r => .refused r

variable (s : State) (m : WrapMode) (d : Dialect)

@[simp] theorem Result.setSettings_next : Result.setSettings m d (.next s) = .next (s.setSettings m d) := rfl

/-- Other settings leave every other part of the state as it is. -/
theorem unchanged_setSettings : UnchangedExcept [.settings] s (s.setSettings m d) := by
  intro p hp
  cases p with
  | settings => exact absurd (List.mem_singleton.2 rfl) hp
  | stack => exact ⟨rfl, fun _ => rfl⟩
  | regs | memory | pixels => exact fun _ => rfl
  | index | pc | delay | sound | redraw | fault | draws | stepped => rfl

@[simp] theorem State.reg_setSettings : (s.setSettings m d).reg = s.reg := rfl
@[simp] theorem State.setSettings_pc : (s.setSettings m d).pc = s.pc := rfl
@[simp] theorem State.base_setSettings : (s.setSettings m d).base = s.base := rfl
@[simp] theorem State.keyDown_setSettings : (s.setSettings m d).keyDown = s.keyDown := rfl
@[simp] theorem State.keysDown_setSettings : (s.setSettings m d).keysDown = s.keysDown := rfl
@[simp] theorem State.readBytes_setSettings (base len : Nat) :
    (s.setSettings m d).readBytes base len = s.readBytes base len := by
  simp only [State.readBytes, State.loadBytes_eq]; rfl

@[simp] theorem State.latch_setSettings (c : Condition) :
    (s.setSettings m d).latch c = (s.latch c).setSettings m d := rfl
@[simp] theorem State.setPc_setSettings (w : Word) :
    (s.setSettings m d).setPc w = (s.setPc w).setSettings m d := rfl
@[simp] theorem State.setI_setSettings (w : Word) :
    (s.setSettings m d).setI w = (s.setI w).setSettings m d := rfl

@[simp] theorem State.setRegs_setSettings (l : List (Reg × Byte)) :
    (s.setSettings m d).setRegs l = (s.setRegs l).setSettings m d := by
  induction l generalizing s with
  | nil => rfl
  | cons p l ih => exact ih (s.setReg p.1 p.2)

@[simp] theorem State.storeBytes_setSettings (a : Nat) (bs : List Byte) :
    (s.setSettings m d).storeBytes a bs = (s.storeBytes a bs).setSettings m d := by
  induction bs generalizing s a with
  | nil => rfl
  | cons b bs ih => exact ih (s.setByte a b) (a + 1)

theorem State.push_setSettings (w : Word) :
    (s.setSettings m d).push w = (s.push w).map (·.setSettings m d) := by
  by_cases h : s.sp.val < 16 <;> simp [State.push, State.setSettings, h, Except.map]

theorem State.pop_setSettings :
    (s.setSettings m d).pop = s.pop.map fun p => (p.1, p.2.setSettings m d) := by
  by_cases h : s.sp.val = 0 <;> simp [State.pop, State.setSettings, h, Except.map]

theorem State.writeBytes_setSettings (base : Nat) (bs : List Byte) :
    (s.setSettings m d).writeBytes base bs = (s.writeBytes base bs).map (·.setSettings m d) := by
  cases h : rangeFault base bs.length <;> simp [State.writeBytes, h, Except.map]

variable {s m d}

/-- An instruction does the same under other settings, unless it reads one that is not the same (10_state.md
R31). -/
theorem exec_setSettings {i : Instr} (hm : (∀ x y n, i ≠ .drw x y n) ∨ m = s.wrapMode)
    (hd : (∀ x y, i ≠ .shr x y ∧ i ≠ .shl x y ∧ i ≠ .stRegs x ∧ i ≠ .ldRegs x) ∨ d = s.dialect) :
    exec i (s.setSettings m d) = Result.setSettings m d (exec i s) := by
  cases i with
  | shr x y | shl x y =>
    obtain rfl := hd.resolve_left fun h => by simpa using h x y
    rfl
  | stRegs x =>
    obtain rfl := hd.resolve_left fun h => by simpa using h x x
    simp only [exec, execStRegs, State.base_setSettings, State.reg_setSettings, State.writeBytes_setSettings]
    cases s.writeBytes s.base ((regsUpTo x).map s.reg) <;> rfl
  | ldRegs x =>
    obtain rfl := hd.resolve_left fun h => by simpa using h x x
    simp only [exec, execLdRegs, State.base_setSettings, State.readBytes_setSettings,
      State.setRegs_setSettings]
    cases s.readBytes s.base (x.val + 1) <;> rfl
  | drw x y n =>
    obtain rfl := hm.resolve_left fun h => by simpa using h x y n
    simp only [exec, execDrw, State.base_setSettings, State.readBytes_setSettings]
    cases s.readBytes s.base n <;> rfl
  | ldB x =>
    simp only [exec, execLdB, State.base_setSettings, State.reg_setSettings, State.writeBytes_setSettings]
    cases s.writeBytes s.base (bcdDigits (s.reg x)) <;> rfl
  | ret =>
    simp only [exec, execRet, State.pop_setSettings]
    cases s.pop <;> rfl
  | call nnn =>
    simp only [exec, execCall, State.setSettings_pc, State.push_setSettings]
    cases s.push (s.pc + 2) <;> rfl
  | skp x =>
    simp only [exec, execSkp, State.reg_setSettings]
    cases keyOperand (s.reg x) <;> rfl
  | sknp x =>
    simp only [exec, execSknp, State.reg_setSettings]
    cases keyOperand (s.reg x) <;> rfl
  | ldVxK x =>
    simp only [exec, execLdVxK, State.keysDown_setSettings]
    cases s.keysDown <;> rfl
  | _ => rfl

/-! ### What the host's moves leave -/

@[simp] theorem State.reg_hostReset (s : State) (r : Reg) : (hostReset s).reg r = 0 := by
  simp [hostReset, State.construct, State.reg]

@[simp] theorem State.stack_hostReset (s : State) (k : Fin 16) : (hostReset s).stack[k.val] = 0 := by
  simp [hostReset, State.construct]

theorem State.byteAt_hostReset_font (s : State) (k : Fin 80) : (hostReset s).byteAt k.val = s.font[k.val] :=
  (Memory.read_nil k.val).trans (dif_pos k.isLt)

theorem State.byteAt_hostReset_above (s : State) {a : Nat} (h : 80 ≤ a) : (hostReset s).byteAt a = 0 :=
  (Memory.read_nil a).trans (dif_neg h.not_gt)

theorem step_hostReset (s : State) : step (hostReset s) = .refused .notPowered := rfl

/-- A ROM that fits is stored from 0x200 on the reset machine, which is then powered (R192). -/
theorem loadRom_fits {rom : List Byte} (s : State) (h : rom.length ≤ 3584) :
    loadRom rom s = .next { (hostReset s).storeBytes 0x200 rom with powered := true } := if_pos h

theorem unchanged_loadRom {rom : List Byte} {s t : State} (h : loadRom rom s = .next t) :
    UnchangedExcept [.memory, .settings] (hostReset s) t := by
  obtain ⟨-, rfl⟩ := loadRom_next h
  intro p hp
  have hstore := (unchanged_storeBytes (hostReset s) 0x200 rom).mono (l' := [.memory, .settings]) (by simp) p hp
  cases p with
  | settings => exact absurd hp (by simp)
  | _ => exact hstore

theorem configure_of_not_stepped {s : State} (w : WrapMode) (d : Dialect) (h : s.stepped = false) :
    configure w d s = .next { s with wrapMode := w, dialect := d } := by
  simp [configure, h]

theorem configure_of_stepped {s : State} (w : WrapMode) (d : Dialect) (h : s.stepped = true) :
    configure w d s = .refused .configureMidRun := by
  simp [configure, h]

theorem stepped_of_step {s t : State} (h : step s = .next t) : t.stepped = true := by
  obtain ⟨-, ⟨c, -, rfl⟩ | ⟨i, u, -, -, rfl⟩⟩ := step_next h <;> rfl

/-! ### The obligations -/

/-- Settles O52: under other settings an instruction that does not read them answers the same, and the fetch reads
none. -/
theorem settingsReadOnlyWhereSaid : Obligations.SettingsReadOnlyWhereSaid := by
  unfold Obligations.SettingsReadOnlyWhereSaid
  refine ⟨fun i s t m hi h => ?_, fun i s t d hi h => ?_, fun s m d => State.fetchInstr_congr rfl fun _ => rfl⟩
  · obtain ⟨-, -, -, hdialect, -⟩ := exec_unchanged h .settings (settings_not_mem_partsOf i)
    refine (exec_setSettings (s := s) (m := m) (d := s.dialect) (.inl hi) (.inr rfl)).trans ?_
    rw [h, ← hdialect]
    rfl
  · obtain ⟨-, -, hwrap, -⟩ := exec_unchanged h .settings (settings_not_mem_partsOf i)
    refine (exec_setSettings (s := s) (m := s.wrapMode) (d := d) (.inr rfl) (.inl hi)).trans ?_
    rw [h, ← hwrap]
    rfl

/-- Settles O53: the fields of the constructed state, read one by one. -/
theorem resetLeaves : Obligations.ResetLeaves := by
  unfold Obligations.ResetLeaves
  intro s
  have hstep (t : State) : step (hostReset s) ≠ .next t := fun h => by cases (step_hostReset s).symm.trans h
  exact ⟨s.reg_hostReset, rfl, rfl, rfl, s.stack_hostReset, rfl, rfl, s.byteAt_hostReset_font,
    fun a => s.byteAt_hostReset_above, Display.get_blank, s.keyDown_hostReset, rfl, rfl, rfl, rfl, rfl, rfl, rfl,
    rfl, hstep⟩

/-- Settles O54: the bytes are stored on the reset machine, whose memory above the font is 0. -/
theorem loadRomPlacesProgram : Obligations.LoadRomPlacesProgram := by
  unfold Obligations.LoadRomPlacesProgram
  refine fun rom s => ⟨fun h => ?_, fun h => if_neg (by simpa [romMax] using h)⟩
  have e := loadRom_fits s h
  have hbyte := (hostReset s).byteAt_storeBytes 0x200 rom
  have frame := unchanged_loadRom e
  refine ⟨_, e, rfl, ⟨rfl, frame .fault (by simp)⟩, fun j hj => ?_, fun a ha => ?_, fun a ha => ?_,
    frame .pc (by simp), (hostReset s).storeBytes_wrapMode _ _, (hostReset s).storeBytes_dialect _ _,
    (hostReset s).storeBytes_font _ _, keyDown_of_loadRom e, frame⟩
  · exact (hostReset s).byteAt_storeBytes_add 0x200 hj
  · exact ((hbyte a).trans (if_neg (by omega))).trans (s.byteAt_hostReset_above (by omega))
  · exact (hbyte a).trans (if_neg (by omega))

/-- Settles O56: Configure asks for the record of a step, which every step sets and a Reset clears. -/
theorem configureOnlyBeforeFirstStep : Obligations.ConfigureOnlyBeforeFirstStep := by
  unfold Obligations.ConfigureOnlyBeforeFirstStep
  refine fun w d s => ⟨fun h => ⟨_, configure_of_not_stepped w d h, rfl, rfl, ?_, rfl, rfl, fun _ => rfl⟩,
    configure_of_stepped w d, fun t h => configure_of_stepped w d (stepped_of_step h),
    ⟨_, configure_of_not_stepped w d rfl⟩, fun rom t h => ⟨_, configure_of_not_stepped w d ?_⟩⟩
  · exact unchanged_setSettings s w d
  · exact unchanged_loadRom h .stepped (by simp)

end Sys2Proof.Machine
end
